-- ==== Sys2Proof/Word.lean ====
section
/-!
DEFINITION. The value types of the ECC Word Codec (spec/00_scope.md R6, R7): every multi-bit value is an unsigned
number whose bit `i` has weight `2^i`, so each is a `BitVec` of the width R6 fixes.
-/

namespace Sys2Proof

/-- The payload of a Protected Word, `DATA_W = 64` bits (R6, R21). -/
abbrev Data := BitVec 64

/-- The check bits of a Protected Word, `ECC_W = 8` bits: bits 0 to 6 are P0..P6, bit 7 is the overall parity
(R6, R22). -/
abbrev Ecc := BitVec 8

/-- The Hamming part of a syndrome, `HAM_W = 7` bits, read as a combined position in [0,127] (R6, R77, R101). -/
abbrev HamSyn := BitVec 7

/-- A command code, `OP_W = 3` bits (R6, R73). -/
abbrev OpCode := BitVec 3

/-- A status code, `STATUS_W = 3` bits (R6, R75). -/
abbrev StatusCode := BitVec 3

end Sys2Proof
end

