-- ==== Sys2Proof/Syntax.lean ====
section
/-!
DEFINITION. The operations of the block as syntax: the eight rows of spec/opcode_table.json (R73, R74), the command ports
that encode them (R70, R72), the moves of the host (R72, R160) and the pseudo-commands (R80).
-/

namespace Sys2Proof

/-- An operation of the top-level block: one constructor per row of the opcode table, carrying exactly the operands its
format reads (R73, U11). The three reserved codes are kept apart (U13). -/
inductive Instr where
  /-- `IDLE`, format N (R130). -/
  | idle
  /-- `ENCODE data_i`, format D (R91). -/
  | encode (data : Data)
  /-- `DECODE`, format N (R110). -/
  | decode
  /-- `SYNDROME`, format N (R106). -/
  | syndrome
  /-- `LOAD data_i, ecc_i`, format W (R131). -/
  | load (data : Data) (ecc : Ecc)
  /-- Reserved command code 5 (R132). -/
  | reserved5
  /-- Reserved command code 6 (R132). -/
  | reserved6
  /-- Reserved command code 7 (R132). -/
  | reserved7
  deriving DecidableEq, Repr

/-- The operand formats of R73: which operand ports a command reads. -/
inductive Format where
  /-- reads no operand port -/
  | N
  /-- reads `data_i` -/
  | D
  /-- reads `data_i` and `ecc_i` -/
  | W
  deriving DecidableEq, Repr

/-- A command: the triple on the ports `op_i`, `data_i`, `ecc_i` at a step (R72). -/
structure Command where
  op   : OpCode
  data : Data
  ecc  : Ecc
  deriving DecidableEq, Repr

/-- What the host does at one step: it asserts `rst`, and the command ports are ignored (R160, U12), or it issues a
command (R72). -/
inductive HostMove where
  | reset
  | command (c : Command)
  deriving DecidableEq, Repr

/-- The pseudo-commands of R80, as written: the bit index of `FLIPD` and `FLIPE` is a number whose range WellFormed
checks. -/
inductive Pseudo where
  /-- `FLIPD b`: invert bit `b` of the data. -/
  | flipD (b : Nat)
  /-- `FLIPE k`: invert bit `k` of the check bits. -/
  | flipE (k : Nat)
  /-- `XORW xd, xe`: XOR patterns onto both fields. -/
  | xorW (xd : Data) (xe : Ecc)
  deriving DecidableEq, Repr

end Sys2Proof
end

