-- ==== Sys2Proof/WellFormed.lean ====
section
/-!
DEFINITION. Which terms of the syntax the spec admits. Every operand value of every operation is legal (R74, R145: "any
bit pattern is valid"), so an instruction is always well formed; the checks are on the two forms that carry plain numbers:
a command word written as a number, and the bit index of a pseudo-command.
-/

namespace Sys2Proof

/-- How many wires the command ports have together: 3 of `op_i`, 64 of `data_i`, 8 of `ecc_i` (R70). -/
def commandBits : Nat := 75

/-- Every value of every operand is legal with every operation (R74, R145). -/
def Instr.wellFormed : Instr → Bool
  | .idle => true
  | .encode _ => true
  | .decode => true
  | .syndrome => true
  | .load _ _ => true
  | .reserved5 => true
  | .reserved6 => true
  | .reserved7 => true

/-- A command word written as a number is well formed when it sets no bit beyond the wires of the command ports
(R70). -/
def wordWellFormed (w : Nat) : Bool := decide (w < 2 ^ commandBits)

/-- `FLIPD b` needs `b` in [0,63], `FLIPE k` needs `k` in [0,7] (R80). -/
def Pseudo.wellFormed : Pseudo → Bool
  | .flipD b => decide (b < 64)
  | .flipE k => decide (k < 8)
  | .xorW _ _ => true

end Sys2Proof
end

