-- ==== Sys2Proof/Decode.lean ====
section
/-!
DEFINITION. The decoder of the command ports (R73, R74) and, after it, the encoder written from the same table; the
packing of the three ports into one 75-bit command word; the assembler text (R79).

The spec packs the ports into no word. DESIGN CHOICE (log 7): `op_i` is the first word of a command, `data_i` the second,
`ecc_i` the third, and bits count on from one to the next: bits 2..0 are `op_i`, bits 66..3 `data_i`, bits 74..67 `ecc_i`.
-/

namespace Sys2Proof

/-! ## Decoding -/

/-- The command on the ports, as the operation `op_i` alone selects (R73); the operand ports a format does not read are
dropped (U11). All eight codes have a meaning (R74), so decoding the ports is total. -/
def decodeCommand (c : Command) : Instr :=
  match c.op with
  | 0 => .idle
  | 1 => .encode c.data
  | 2 => .decode
  | 3 => .syndrome
  | 4 => .load c.data c.ecc
  | 5 => .reserved5
  | 6 => .reserved6
  | 7 => .reserved7

/-- The ports that the wires of a command word stand for (log 7). -/
def commandOfWord (w : BitVec 75) : Command :=
  { op := w.extractLsb' 0 3, data := w.extractLsb' 3 64, ecc := w.extractLsb' 67 8 }

/-- Why a number is no command word. -/
inductive DecodeReject where
  /-- a bit is set beyond the 75 wires of the command ports (R70) -/
  | beyondThePorts
  deriving DecidableEq, Repr

/-- Decoding a command word given as a number: total, rejecting by name (R70, R73). -/
def decodeNat (w : Nat) : Except DecodeReject Instr :=
  if wordWellFormed w then .ok (decodeCommand (commandOfWord (BitVec.ofNat 75 w))) else .error .beyondThePorts

/-- The instruction the decoder reads from the low `nbits` bits of `w`, every bit above them 0. -/
def decodeTableWord (nbits w : Nat) : Option Instr :=
  match decodeNat (w % 2 ^ nbits) with
  | .ok i => some i
  | .error _ => none

/-! ## Encoding -/

/-- The code of `op_i` for an operation (R73, R74). -/
def Instr.opCode : Instr → OpCode
  | .idle => 0
  | .encode _ => 1
  | .decode => 2
  | .syndrome => 3
  | .load _ _ => 4
  | .reserved5 => 5
  | .reserved6 => 6
  | .reserved7 => 7

/-- The operand format of an operation (R73). -/
def Instr.format : Instr → Format
  | .idle => .N
  | .encode _ => .D
  | .decode => .N
  | .syndrome => .N
  | .load _ _ => .W
  | .reserved5 => .N
  | .reserved6 => .N
  | .reserved7 => .N

/-- The command ports for an operation (R73). A port its format does not read may carry any value (U11);
DESIGN CHOICE (log 8): the encoder puts 0 there. -/
def encodeCommand (i : Instr) : Command :=
  match i with
  | .idle => { op := i.opCode, data := 0, ecc := 0 }
  | .encode d => { op := i.opCode, data := d, ecc := 0 }
  | .decode => { op := i.opCode, data := 0, ecc := 0 }
  | .syndrome => { op := i.opCode, data := 0, ecc := 0 }
  | .load d e => { op := i.opCode, data := d, ecc := e }
  | .reserved5 => { op := i.opCode, data := 0, ecc := 0 }
  | .reserved6 => { op := i.opCode, data := 0, ecc := 0 }
  | .reserved7 => { op := i.opCode, data := 0, ecc := 0 }

/-- The command word of the ports, `ecc_i ‖ data_i ‖ op_i` (R8; log 7). -/
def wordOfCommand (c : Command) : BitVec 75 := c.ecc ++ c.data ++ c.op

/-- The command word of an operation. -/
def encodeWord (i : Instr) : BitVec 75 := wordOfCommand (encodeCommand i)

/-! ## Assembler text (R79) -/

/-- One upper-case hexadecimal digit. -/
def hexDigit (n : Nat) : Char :=
  if n < 10 then Char.ofNat (48 + n) else Char.ofNat (55 + n)

/-- The last `k` hexadecimal digits of `n`, most significant first (R7, R79). -/
def hexDigits : Nat → Nat → List Char
  | 0, _ => []
  | k + 1, n => hexDigits k (n / 16) ++ [hexDigit (n % 16)]

/-- The command as one line of R79; the reserved codes have no spelling there. -/
def Instr.text : Instr → Option (List Char)
  | .idle => some "IDLE".toList
  | .encode d => some ("ENCODE 0x".toList ++ hexDigits 16 d.toNat)
  | .decode => some "DECODE".toList
  | .syndrome => some "SYNDROME".toList
  | .load d e => some ("LOAD 0x".toList ++ hexDigits 16 d.toNat ++ ", 0x".toList ++ hexDigits 2 e.toNat)
  | .reserved5 => none
  | .reserved6 => none
  | .reserved7 => none

end Sys2Proof
end

