-- ==== Sys2Proof/Config.lean ====
section
/-!
DEFINITION. What is fixed for the machine and what the spec leaves open (spec/00_scope.md R6,
spec/93_implementation_defined.md). The constants without a body are free values: nothing can evaluate them, and a claim
that is proved holds whatever they are.
-/

namespace Sys2Proof

/-- `POS_MAX`: the highest combined position that hosts a bit (R6). -/
def Config.posMax : Nat := 71

/-- `TABLE_N`: the number of entries of the position table (R6). -/
def Config.tableN : Nat := 128

/-- The unspecified contents of `PW.data` after a reset (R35, U1: "any value"), one for each reset that is taken.
DESIGN CHOICE (log 3): a free value; the same for every instance (log 18). -/
opaque Config.resetData : Nat → Data

/-- The unspecified contents of `PW.ecc` after a reset (R35, U1: "any value"), one for each reset that is taken.
DESIGN CHOICE (log 3): a free value; the same for every instance (log 18). -/
opaque Config.resetEcc : Nat → Ecc

/-- One less than `LATENCY`, so that `LATENCY` is positive by construction. -/
opaque Config.latencyMinusOne : Nat

/-- `LATENCY`, the cycles of one step: an OPEN positive parameter, the same for every command and operand, read by no
rule (R6, R171, D8, U9; log 10). -/
def Config.latency : Nat := Config.latencyMinusOne + 1

end Sys2Proof
end

