-- ==== Sys2Proof/Machine/State.lean ====
section
/-!
DEFINITION. The state of one instance of `ecc_word_codec` as plain data: the Protected Word register, which is all the
architectural state there is (R20, R32), and the ports, held here because a step has no other input or output (R70, R72).
The types of statuses, errors and responses stand here too (R75, R76, R140), and why a step could stop.
-/

namespace Sys2Proof.Machine

/-! ## Statuses and responses -/

/-- The success statuses, codes 0 to 2 (R75). `clean` is also the "OK" of ENCODE, LOAD and SYNDROME (C2). -/
inductive SuccessStatus where
  | clean
  | correctedData
  | correctedEcc
  deriving DecidableEq, Repr

/-- The causes of the internal-invariant error kind, codes 4 to 6 (R75, R140). -/
inductive InvariantCause where
  /-- `INVARIANT_TABLE`, raised by DECODE (R142). -/
  | table
  /-- `NO_WORD`, raised by DECODE and SYNDROME (R143). -/
  | noWord
  /-- `ILLEGAL_OP`, raised by the reserved codes (R144). -/
  | illegalOp
  deriving DecidableEq, Repr

/-- The two error kinds, kept apart by construction (R140, R168, U3). -/
inductive ErrorKind where
  /-- the business error `UNCORRECTABLE`, code 3 (R141) -/
  | uncorrectable
  /-- the internal kind, `raise Invariant(cause)` of R12 -/
  | invariant (cause : InvariantCause)
  deriving DecidableEq, Repr

/-- A status: seven values, none for code 7 (R75, U10). -/
inductive Status where
  | success (s : SuccessStatus)
  | error (e : ErrorKind)
  deriving DecidableEq, Repr

/-- The response of a step (R76). An error carries no data, by construction (U2); DEDUCED (log 6): a port with
"no value" is absent. -/
inductive Response where
  /-- `rsp_valid_o = 0`: an IDLE or a reset step (R130, R160) -/
  | noResponse
  /-- a success with its result data -/
  | answer (status : SuccessStatus) (data : Data) (ecc : Ecc) (perr : Bool)
  /-- an error, which carries nothing but its status -/
  | failure (kind : ErrorKind)
  deriving DecidableEq, Repr

/-! ## State -/

/-- The Protected Word register `PW`, 73 bits (R20 to R23, R32). -/
structure PWRegister where
  /-- `PW.valid`: a word is present (R23) -/
  valid : Bool
  /-- `PW.data` (R21) -/
  data  : Data
  /-- `PW.ecc` (R22) -/
  ecc   : Ecc
  deriving DecidableEq, Repr

/-- The state of one instance with its ports. -/
structure State where
  /-- the Protected Word register (R20) -/
  pw     : PWRegister
  /-- what the response ports carried in the step just taken (R70, R76; log 5); no operation reads it (R28) -/
  rsp    : Response
  /-- the host's moves to come, the next one first (R14, R72; log 1) -/
  host   : List HostMove
  /-- the MODEL's own: how many draws of unspecified reset contents were made (U1; log 4) -/
  resets : Nat
  deriving DecidableEq, Repr

/-- The machine right after reset (R35): no word present, the two fields unspecified (free values, log 3), no response
(R160), and no move of the host waiting (log 1). -/
def State.reset : State :=
  { pw := { valid := false, data := Config.resetData 0, ecc := Config.resetEcc 0 }
    rsp := .noResponse
    host := []
    resets := 1 }

/-! ## Why a step could stop -/

/-- No fault exists: every operation is total (R15, R94), every error is a response of its step after which the block
goes on (R148, R149; log 9). So the type has no constructor, nobody raises one, and that is safe. -/
inductive Fault where
  deriving DecidableEq, Repr

/-- Why the model would give an instruction no meaning. -/
inductive Refusal where
  /-- Raised by an arm of `exec` whose instruction has no meaning yet (none is left); safe. -/
  | notModelled (mnemonic : String)
  deriving DecidableEq, Repr

/-- The outcome of a step or of an operation. -/
abbrev Result := Host.Outcome State Fault Refusal

end Sys2Proof.Machine
end

