-- ==== Sys2Proof/Machine/Flags.lean ====
section
/-!
DEFINITION. The counting primitives and the conditions computed from them (R9, R10, R11, R28): the block stores no flag,
so these are the only condition values there are. Also the numeric status codes (R75).
-/

namespace Sys2Proof.Machine

/-- The number of set bits of `v` among its bits below `n`. -/
def popcountBelow {w : Nat} (v : BitVec w) : Nat → Nat
  | 0 => 0
  | n + 1 => popcountBelow v n + (v.getLsbD n).toNat

/-- `popcount(v)`: "the population count (number of set bits)" (R9). -/
def popcount {w : Nat} (v : BitVec w) : Nat := popcountBelow v w

/-- `parity(v)` = `popcount(v) mod 2`, as a bit: set when the number of set bits is odd (R9). -/
def parity {w : Nat} (v : BitVec w) : Bool := popcount v % 2 == 1

/-- `is_pow2(s)`: exactly one bit of `s` is set (R10). -/
def isPow2 {w : Nat} (v : BitVec w) : Bool := popcount v == 1

/-- "total population count of `word.data` plus `word.ecc` is even ... or odd (error signalled)" (R102): over all 72
stored bits, from the stored fields alone. -/
def parityError (d : Data) (e : Ecc) : Bool := (popcount d + popcount e) % 2 == 1

/-- The codes of the success statuses (R75). -/
def successCode : SuccessStatus → StatusCode
  | .clean => 0
  | .correctedData => 1
  | .correctedEcc => 2

/-- The codes of the error statuses (R75). -/
def errorCode : ErrorKind → StatusCode
  | .uncorrectable => 3
  | .invariant .table => 4
  | .invariant .noWord => 5
  | .invariant .illegalOp => 6

/-- The code of a status on `status_o` and `rsp_status_o` (R75). -/
def statusCode : Status → StatusCode
  | .success s => successCode s
  | .error e => errorCode e

end Sys2Proof.Machine
end

