-- ==== Sys2Proof/Machine/Operands.lean ====
section
/-!
DEFINITION. Operand assembly: the Coverage Table (R62 to R68) and how a syndrome becomes the bit it names (R77).

The machine uses the literal tables of R65 and R67. The interleaving rule they must follow (R62 to R64) stands beside them
as functions of its own, so that their agreement is a statement to prove (R66, R163), not a convention.
-/

namespace Sys2Proof.Machine

/-! ## The Coverage Table as constants -/

/-- `coverageMask(k)`: the data bits that parity bit `k` covers (R65). -/
def coverageMask (k : Fin 7) : Data :=
  match k with
  | 0 => 0xAB55555556AAAD5B
  | 1 => 0xCD9999999B33366D
  | 2 => 0xF1E1E1E1E3C3C78E
  | 3 => 0x01FE01FE03FC07F0
  | 4 => 0x01FFFE0003FFF800
  | 5 => 0x01FFFFFFFC000000
  | 6 => 0xFE00000000000000

/-- Rows 0 to 31 of the position table (R67). -/
def positionRowsLow : List (Option (Fin 64)) :=
  [none, none, none, some 0, none, some 1, some 2, some 3] ++
  [none, some 4, some 5, some 6, some 7, some 8, some 9, some 10] ++
  [none, some 11, some 12, some 13, some 14, some 15, some 16, some 17] ++
  [some 18, some 19, some 20, some 21, some 22, some 23, some 24, some 25]

/-- Rows 32 to 63 of the position table (R67). -/
def positionRowsMid : List (Option (Fin 64)) :=
  [none, some 26, some 27, some 28, some 29, some 30, some 31, some 32] ++
  [some 33, some 34, some 35, some 36, some 37, some 38, some 39, some 40] ++
  [some 41, some 42, some 43, some 44, some 45, some 46, some 47, some 48] ++
  [some 49, some 50, some 51, some 52, some 53, some 54, some 55, some 56]

/-- Row 64 of the position table (R67). -/
def positionRowsHigh : List (Option (Fin 64)) :=
  [none, some 57, some 58, some 59, some 60, some 61, some 62, some 63]

/-- The whole 128-entry table `hammingToData`: the rows from 72 on hold `NONE` in every entry (R67, D11). -/
def positionTable : List (Option (Fin 64)) :=
  positionRowsLow ++ positionRowsMid ++ positionRowsHigh ++ List.replicate (Config.tableN - 72) none

/-- `positionToDataBit(p)`, the data bit hosted at combined position `p`, or `NONE` (R67, U7). -/
def positionToDataBit (p : HamSyn) : Option (Fin 64) := (positionTable[p.toNat]?).join

/-! ## The interleaving rule they follow -/

/-- The positions that host data bits, ascending: those of [1,71] that are not powers of two (R62, R63). -/
def dataPositions : List HamSyn :=
  ((List.range (Config.posMax + 1)).map (BitVec.ofNat 7)).filter fun p => p != 0 && !isPow2 p

/-- `pos(b)`: data bit 0 takes the lowest such position, data bit 1 the next, and so on (R63). -/
def pos (b : Fin 64) : HamSyn := dataPositions.getD b.val 0

/-- The closed form of R63: the data bit hosted at `p`, for `p` in [3,71] that is not a power of two. -/
def hostedBit (p : Nat) : Nat := p - Nat.log2 p - 2

/-! ## From a syndrome to a bit -/

/-- `1 << b`, the mask of a data bit (R7, R77). -/
def dataBitMask (b : Fin 64) : Data := 1#64 <<< b.val

/-- The data word with one bit inverted (R114). -/
def flipDataBit (d : Data) (b : Fin 64) : Data := d ^^^ dataBitMask b

end Sys2Proof.Machine
end

