-- ==== Sys2Proof/Machine/Ops.lean ====
section
/-!
DEFINITION. The shared operations over the state: the storage primitives of R54, the ways a step ends (R76, R148), the
guard of DECODE and SYNDROME (R143), the reset step (R160), and taking the host's next move (R72).
-/

namespace Sys2Proof.Machine

/-! ## Storage (R54): whole fields only -/

/-- `PW.data <- v`. -/
def writeData (v : Data) (s : State) : State := { s with pw := { s.pw with data := v } }

/-- `PW.ecc <- v`. -/
def writeEcc (v : Ecc) (s : State) : State := { s with pw := { s.pw with ecc := v } }

/-- `PW.valid <- 1`. -/
def setValid (s : State) : State := { s with pw := { s.pw with valid := true } }

/-- Writing a whole word, as ENCODE and LOAD do; the old contents are not examined (R91, R131, R169). -/
def writeWord (d : Data) (e : Ecc) (s : State) : State := setValid (writeEcc e (writeData d s))

/-! ## How a step ends -/

/-- `respond(...)`: a success with its result data (R12, R76). -/
def respond (st : SuccessStatus) (d : Data) (e : Ecc) (perr : Bool) (s : State) : State :=
  { s with rsp := .answer st d e perr }

/-- A step without a response: `rsp_valid_o = 0` (R130, R160). -/
def noResponse (s : State) : State := { s with rsp := .noResponse }

/-- Taking an error, `raise Uncorrectable` and `raise Invariant(cause)` of R12: "Nothing is saved, no mode changes, no
control is transferred, nothing is masked: the step ends with the error status on `rsp_status_o`, `PW` exactly as before
the step, and no result data" (R148). There is no return from an error: "There is no return operation and nothing to
restore" (R149); the next command runs from the state this leaves (D21; log 9). -/
def raiseError (k : ErrorKind) (s : State) : Result := .next { s with rsp := .failure k }

/-- The precondition of DECODE and SYNDROME: `NO_WORD` while `PW.valid = 0`, before anything is computed (R143, R147). -/
def withWord (f : State → Result) (s : State) : Result :=
  if s.pw.valid then f s else raiseError (.invariant .noWord) s

/-! ## Reset -/

/-- A reset step (R160): no word, both fields unspecified (each reset draws its own free values, log 3), no response.
DESIGN CHOICE (log 18): the draws are numbered within one instance, so instances reset equally often hold the same unspecified
contents; the spec leaves open whether they agree. -/
def takeReset (s : State) : State :=
  { s with
    pw := { valid := false, data := Config.resetData s.resets, ecc := Config.resetEcc s.resets }
    rsp := .noResponse
    resets := s.resets + 1 }

/-! ## The host's next move -/

/-- The command ports when the host drives no command: `IDLE`, "so that a step can carry no command" (R73; log 2). -/
def idleCommand : Command := { op := 0, data := 0, ecc := 0 }

/-- The move the host makes at this step, and the state with that move taken off the queue (R72). -/
def nextMove (s : State) : HostMove × State :=
  match s.host with
  | [] => (.command idleCommand, s)
  | m :: rest => (m, { s with host := rest })

/-- The command in the low `nbits` bits of `w`, put where the next step takes its move from (log 1). -/
def issueWord (nbits w : Nat) (s : State) : State :=
  { s with host := .command (commandOfWord (BitVec.ofNat 75 (w % 2 ^ nbits))) :: s.host }

end Sys2Proof.Machine
end

