-- ==== Sys2Proof/Machine/Encoder.lean ====
section
/-!
DEFINITION. The encoder: `computeECC`, the block `hamming_ecc_encoder` and the operation ENCODE (spec/40_encode.md).
-/

namespace Sys2Proof.Machine

/-- The parity bit `k` of a data word: 1 if the number of set bits that `coverageMask(k)` selects is odd (R90). -/
def hammingBit (d : Data) (k : Fin 7) : Bool := parity (d &&& coverageMask k)

/-- `e[6:0]`, the seven Hamming parity bits, P`k` in bit `k` (R22, R90). -/
def hammingBits (d : Data) : HamSyn :=
  BitVec.ofBool (hammingBit d 6) ++ BitVec.ofBool (hammingBit d 5) ++ BitVec.ofBool (hammingBit d 4) ++
  BitVec.ofBool (hammingBit d 3) ++ BitVec.ofBool (hammingBit d 2) ++ BitVec.ofBool (hammingBit d 1) ++
  BitVec.ofBool (hammingBit d 0)

/-- `e[7]`: "the value that makes `popcount(data) + popcount(ecc_bits_0_to_6)` even" (R90). -/
def overallBit (d : Data) : Bool := (popcount d + popcount (hammingBits d)) % 2 == 1

/-- `computeECC(data)`: "packing bits 0–6 as the Hamming parity bits and bit 7 as overall parity" (R90). -/
def computeECC (d : Data) : Ecc := BitVec.ofBool (overallBit d) ++ hammingBits d

/-- The block `hamming_ecc_encoder`, `ecc_o` from `data_i`, combinational (R71, R93). -/
def hammingEccEncoder (data_i : Data) : Ecc := computeECC data_i

/-- ENCODE (R91). -/
def execEncode (data_i : Data) (s : State) : Result :=
  .next (respond .clean data_i (hammingEccEncoder data_i) false (writeWord data_i (hammingEccEncoder data_i) s))

end Sys2Proof.Machine
end

