-- ==== Sys2Proof/Machine/Syndrome.lean ====
section
/-!
DEFINITION. The syndrome calculator: the block `syndrome_calculator` and the operation SYNDROME (spec/41_syndrome.md).
-/

namespace Sys2Proof.Machine

/-- The outputs of `syndrome_calculator` (R71, R105). -/
structure SyndromeOut where
  expected : Ecc
  syndrome : Ecc
  hsyn     : HamSyn
  perr     : Bool
  deriving DecidableEq, Repr

/-- `syndrome`: stored check bits XOR those recomputed from the data as it stands (R100, R101). -/
def syndromeOf (d : Data) (e : Ecc) : Ecc := e ^^^ hammingEccEncoder d

/-- `hammingSyndrome`, the low seven bits of `syndrome` (R101). -/
def hammingSyndrome (d : Data) (e : Ecc) : HamSyn := (syndromeOf d e).extractLsb' 0 7

/-- The block `syndrome_calculator` (R105). -/
def syndromeCalculator (data_i : Data) (ecc_i : Ecc) : SyndromeOut :=
  { expected := hammingEccEncoder data_i
    syndrome := syndromeOf data_i ecc_i
    hsyn := hammingSyndrome data_i ecc_i
    perr := parityError data_i ecc_i }

/-- SYNDROME (R106): it reports and changes nothing. -/
def execSyndrome (s : State) : Result :=
  withWord (fun s =>
    let y := syndromeCalculator s.pw.data s.pw.ecc
    .next (respond .clean (y.expected.setWidth 64) y.syndrome y.perr s)) s

end Sys2Proof.Machine
end

