-- ==== Sys2Proof/Machine/Decoder.lean ====
section
/-!
DEFINITION. The decoder: the block `hamming_ecc_decoder` and the operation DECODE (spec/42_decode.md).
-/

namespace Sys2Proof.Machine

/-- The outputs of `hamming_ecc_decoder` (R71, R125); `status_o` is `statusCode status`. -/
structure DecoderOut where
  status  : Status
  data    : Data
  ecc     : Ecc
  rewrite : Bool
  deriving DecidableEq, Repr

/-- The decoder's answer when nothing is rewritten (R119): the fields are the inputs. -/
def keepWord (st : Status) (d : Data) (e : Ecc) : DecoderOut := { status := st, data := d, ecc := e, rewrite := false }

/-- The decoder's answer on a correcting branch (R113 to R115): the data `d`, and the check bits recomputed from it. -/
def rewriteWord (st : SuccessStatus) (d : Data) : DecoderOut :=
  { status := .success st, data := d, ecc := hammingEccEncoder d, rewrite := true }

/-- Case 2 of the classification: a single-bit error at the position `p` (R113, R114, R117). The power-of-two test is
made before, and instead of, the table lookup. -/
def correctAt (p : HamSyn) (d : Data) (e : Ecc) : DecoderOut :=
  if isPow2 p then rewriteWord .correctedEcc d
  else
    match positionToDataBit p with
    | none => keepWord (.error (.invariant .table)) d e
    | some b => rewriteWord .correctedData (flipDataBit d b)

/-- The classification of R110 and R111 over the Hamming syndrome `h` and the parity error `p`, its four cases in their
order. -/
def classify (h : HamSyn) (p : Bool) (d : Data) (e : Ecc) : DecoderOut :=
  if h = 0 ∧ p = false then keepWord (.success .clean) d e
  else if p = true ∧ h ≠ 0 then correctAt h d e
  else if p = true ∧ h = 0 then rewriteWord .correctedEcc d
  else keepWord (.error .uncorrectable) d e

/-- The block `hamming_ecc_decoder` (R125): one `syndrome_calculator`, and the classification of what it gives. -/
def hammingEccDecoder (data_i : Data) (ecc_i : Ecc) : DecoderOut :=
  classify (syndromeCalculator data_i ecc_i).hsyn (syndromeCalculator data_i ecc_i).perr data_i ecc_i

/-- The rewrite by inverting one bit at syndrome `h`: `ecc` bit 7 at 0, the `ecc` bit at a parity slot, else the data bit
(R118). -/
def invertAt (h : HamSyn) (d : Data) (e : Ecc) : DecoderOut :=
  if h = 0 then { status := .success .correctedEcc, data := d, ecc := e ^^^ 0x80#8, rewrite := true }
  else if isPow2 h then { status := .success .correctedEcc, data := d, ecc := e ^^^ h.setWidth 8, rewrite := true }
  else
    match positionToDataBit h with
    | none => keepWord (.error (.invariant .table)) d e
    | some b => { status := .success .correctedData, data := flipDataBit d b, ecc := e, rewrite := true }

/-- The other construction R125 allows for the rewritten check bits: "which by rule R118 a design may replace by inverting
one bit of `ecc_i`, the results being equal". -/
def invertingDecoder (data_i : Data) (ecc_i : Ecc) : DecoderOut :=
  if parityError data_i ecc_i then invertAt (hammingSyndrome data_i ecc_i) data_i ecc_i
  else if hammingSyndrome data_i ecc_i = 0 then keepWord (.success .clean) data_i ecc_i
  else keepWord (.error .uncorrectable) data_i ecc_i

/-- The end of a DECODE: the word is written back when `rewrite_o = 1` (R125), and the response carries the word after the
step, or the error (R76, R120). -/
def finishDecode (o : DecoderOut) (s : State) : Result :=
  let s' := if o.rewrite then writeEcc o.ecc (writeData o.data s) else s
  match o.status with
  | .success st => .next (respond st o.data o.ecc false s')
  | .error k => raiseError k s'

/-- DECODE (R110, R125). -/
def execDecode (s : State) : Result :=
  withWord (fun s => finishDecode (hammingEccDecoder s.pw.data s.pw.ecc) s) s

end Sys2Proof.Machine
end

