-- ==== Sys2Proof/Machine/HostOps.lean ====
section
/-!
DEFINITION. The host operations IDLE and LOAD and the reserved command codes (spec/43_host_ops.md), and the expansion of
the pseudo-commands to a LOAD (R80).
-/

namespace Sys2Proof.Machine

/-- IDLE (R130): no state is read or written, no response. -/
def execIdle (s : State) : Result := .next (noResponse s)

/-- LOAD (R131): both fields are written with the operands, nothing is checked. -/
def execLoad (data_i : Data) (ecc_i : Ecc) (s : State) : Result :=
  .next (respond .clean data_i ecc_i false (writeWord data_i ecc_i s))

/-- Reserved command code 5 (R132). -/
def execReserved5 (s : State) : Result := raiseError (.invariant .illegalOp) s

/-- Reserved command code 6 (R132). -/
def execReserved6 (s : State) : Result := raiseError (.invariant .illegalOp) s

/-- Reserved command code 7 (R132). -/
def execReserved7 (s : State) : Result := raiseError (.invariant .illegalOp) s

/-- The LOAD a pseudo-command stands for, its operands formed by the host from the word it sees on `pw_data_o` and
`pw_ecc_o`; defined only while `PW.valid = 1`, and for a bit index in range (R80). -/
def expandPseudo (p : Pseudo) (s : State) : Option Instr :=
  if s.pw.valid && p.wellFormed then
    match p with
    | .flipD b => some (.load (s.pw.data ^^^ (1#64 <<< b)) s.pw.ecc)
    | .flipE k => some (.load s.pw.data (s.pw.ecc ^^^ (1#8 <<< k)))
    | .xorW xd xe => some (.load (s.pw.data ^^^ xd) (s.pw.ecc ^^^ xe))
  else none

end Sys2Proof.Machine
end

