-- ==== Sys2Proof/Machine/Dispatch.lean ====
section
/-!
DEFINITION. The dispatch from an instruction to its meaning: one arm per row of spec/opcode_table.json.
-/

namespace Sys2Proof.Machine

/-- What an operation does at a state (R72). -/
def exec (i : Instr) (s : State) : Host.Outcome State Fault Refusal :=
  match i with
  | .idle => Sys2Proof.Machine.execIdle s
  | .encode d => Sys2Proof.Machine.execEncode d s
  | .decode => Sys2Proof.Machine.execDecode s
  | .syndrome => Sys2Proof.Machine.execSyndrome s
  | .load d e => Sys2Proof.Machine.execLoad d e s
  | .reserved5 => Sys2Proof.Machine.execReserved5 s
  | .reserved6 => Sys2Proof.Machine.execReserved6 s
  | .reserved7 => Sys2Proof.Machine.execReserved7 s

end Sys2Proof.Machine
end

