-- ==== Sys2Proof/Machine/Step.lean ====
section
/-!
DEFINITION. One step of the block: the host's next move is taken and carried out (R72, R160), and the fold of that over a
sequence of moves (R48). `withFetchWord` puts a command where the next step takes its move from.
-/

namespace Sys2Proof.Machine

/-- Carrying out one move of the host: a reset step, or the command on the ports (R72, R160). -/
def applyMove (m : HostMove) (s : State) : Result :=
  match m with
  | .reset => .next (takeReset s)
  | .command c => exec (decodeCommand c) s

/-- One step of the block (R72). -/
def step (s : State) : Host.Outcome State Fault Refusal :=
  applyMove (nextMove s).1 (nextMove s).2

/-- The fold of the step function over a sequence of moves (R48). -/
def applyMoves : List HostMove → State → Result
  | [], s => .next s
  | m :: ms, s =>
    match applyMove m s with
    | .next t => applyMoves ms t
    | .fault f => .fault f
    | .refused r => .refused r

/-- The state with a command put where `step` takes the host's next move from (log 1). -/
def State.withFetchWord (s : State) (nbits w : Nat) : State := issueWord nbits w s

end Sys2Proof.Machine
end

