-- ==== Sys2Proof/Machine/Ports.lean ====
section
/-!
DEFINITION. The output ports of the top-level block as the host sees them (R26, R70, R76). DEDUCED (log 6): a port whose
value the spec leaves unspecified is `none`, so that nothing can be proved of it.
-/

namespace Sys2Proof.Machine

/-- The output ports of R70. -/
structure OutputPorts where
  pwValid   : Bool
  pwData    : Option Data
  pwEcc     : Option Ecc
  rspValid  : Bool
  rspStatus : Option StatusCode
  rspData   : Option Data
  rspEcc    : Option Ecc
  rspPerr   : Option Bool
  deriving DecidableEq, Repr

/-- `rsp_valid_o`: 1 when the step's command was not IDLE (R70). -/
def rspValid : Response → Bool
  | .noResponse => false
  | .answer _ _ _ _ => true
  | .failure _ => true

/-- `rsp_status_o` (R75, R76). -/
def rspStatus : Response → Option StatusCode
  | .noResponse => none
  | .answer st _ _ _ => some (statusCode (.success st))
  | .failure k => some (statusCode (.error k))

/-- `rsp_data_o` (R76). -/
def rspData : Response → Option Data
  | .noResponse => none
  | .answer _ d _ _ => some d
  | .failure _ => none

/-- `rsp_ecc_o` (R76). -/
def rspEcc : Response → Option Ecc
  | .noResponse => none
  | .answer _ _ e _ => some e
  | .failure _ => none

/-- `rsp_perr_o` (R76). -/
def rspPerr : Response → Option Bool
  | .noResponse => none
  | .answer _ _ _ p => some p
  | .failure _ => none

/-- All output ports; `pw_data_o` and `pw_ecc_o` are unspecified while `PW.valid = 0` (R70). -/
def outputPorts (s : State) : OutputPorts :=
  { pwValid := s.pw.valid
    pwData := if s.pw.valid then some s.pw.data else none
    pwEcc := if s.pw.valid then some s.pw.ecc else none
    rspValid := rspValid s.rsp
    rspStatus := rspStatus s.rsp
    rspData := rspData s.rsp
    rspEcc := rspEcc s.rsp
    rspPerr := rspPerr s.rsp }

end Sys2Proof.Machine
end

