-- ==== Sys2Proof/Machine/System.lean ====
section
/-!
DEFINITION. Several instances of the block in one system (R34, R154): each has its own `PW` and its own host queue; they
share nothing but the constant Coverage Table, and one host move reaches one instance (R49; log 13).
-/

namespace Sys2Proof.Machine

/-- A system of instances, each by its index. DESIGN CHOICE (log 18): their unspecified contents after reset come from the same
free values, each instance counting its own resets. -/
abbrev System := List State

/-- Instance `k` takes one step; the others do nothing. An index without an instance changes nothing. -/
def stepInstance (k : Nat) (sys : System) : System :=
  match sys[k]? with
  | none => sys
  | some s =>
    match step s with
    | .next t => sys.set k t
    | .fault _ => sys
    | .refused _ => sys

end Sys2Proof.Machine
end

