-- ==== Sys2Proof/Machine/CodeWord.lean ====
section
/-!
DEFINITION. A Protected Word as a code word, and the naming aids of the spec for its 72 bits: the packing `cw72` (R41) and
the code-word view with its flips (R69).
-/

namespace Sys2Proof.Machine

/-- A Protected Word is a code word when `ecc = computeECC(data)` (R61). -/
abbrev isCodeWord (d : Data) (e : Ecc) : Prop := e = computeECC d

/-- `cw72 = ecc ‖ data` (R41). -/
def cw72 (d : Data) (e : Ecc) : BitVec 72 := e ++ d

/-- The data bits a flip at position `p` inverts: bit `b` at `p = pos(b)`, none elsewhere (R69). -/
def flipDataPattern (p : Fin 72) : Data :=
  match positionToDataBit (BitVec.ofNat 7 p.val) with
  | some b => dataBitMask b
  | none => 0

/-- The `ecc` bits a flip at position `p` inverts: bit 7 at `p = 0`, bit `k` at `p = 2^k`, none elsewhere (R69). -/
def flipEccPattern (p : Fin 72) : Ecc :=
  if p.val = 0 then 0x80 else if isPow2 (BitVec.ofNat 7 p.val) then BitVec.ofNat 8 p.val else 0

/-- `cw[p]`, the bit of a Protected Word at position `p` (R69). -/
def codeWordBit (d : Data) (e : Ecc) (p : Fin 72) : Bool :=
  (d &&& flipDataPattern p) != 0 || (e &&& flipEccPattern p) != 0

/-- The data bits that a list of flipped positions inverts, a position listed twice being flipped twice (R69, R104). -/
def flipsData (ps : List (Fin 72)) : Data := ps.foldr (fun p x => flipDataPattern p ^^^ x) 0

/-- The `ecc` bits that a list of flipped positions inverts (R69, R104). -/
def flipsEcc (ps : List (Fin 72)) : Ecc := ps.foldr (fun p x => flipEccPattern p ^^^ x) 0

/-- The XOR of a list of positions as 7-bit numbers (R69, R104). -/
def xorPositions (ps : List (Fin 72)) : HamSyn := ps.foldr (fun p x => BitVec.ofNat 7 p.val ^^^ x) 0

end Sys2Proof.Machine
end

