-- ==== Sys2Proof/Safety.lean ====
section
/-!
DEFINITION. What counts as a safe run, in the terms the claims use: a response that is true of the word held, and a
register that holds a code word whenever it holds a word.
-/

namespace Sys2Proof.Machine

/-- The response on the ports is true of the word held (R23, R24, R76, R106, R140 to R143, R166): a CLEAN answer is the word
held, or the report of SYNDROME on it; a correction left exactly the word it answered, and that is a code word; an
`UNCORRECTABLE` or `INVARIANT_TABLE` word is still held, with the syndrome that condemned it; `NO_WORD` means no word. -/
def ResponseTrueOfWord (s : State) : Prop :=
  match s.rsp with
  | .noResponse => True
  | .answer .clean d e p =>
      (s.pw = ⟨true, d, e⟩ ∧ p = false) ∨
      (s.pw.valid = true ∧ d = (computeECC s.pw.data).setWidth 64 ∧ e = syndromeOf s.pw.data s.pw.ecc ∧
        p = parityError s.pw.data s.pw.ecc)
  | .answer .correctedData d e p => s.pw = ⟨true, d, e⟩ ∧ isCodeWord d e ∧ p = false
  | .answer .correctedEcc d e p => s.pw = ⟨true, d, e⟩ ∧ isCodeWord d e ∧ p = false
  | .failure .uncorrectable =>
      s.pw.valid = true ∧ hammingSyndrome s.pw.data s.pw.ecc ≠ 0 ∧ parityError s.pw.data s.pw.ecc = false
  | .failure (.invariant .table) =>
      s.pw.valid = true ∧ 72 ≤ (hammingSyndrome s.pw.data s.pw.ecc).toNat ∧ parityError s.pw.data s.pw.ecc = true
  | .failure (.invariant .noWord) => s.pw.valid = false
  | .failure (.invariant .illegalOp) => True

/-- A move of the host that is not a LOAD, the only way corruption enters (R131, D23). -/
def HostMove.loadsNothing : HostMove → Bool
  | .reset => true
  | .command c => c.op != 4

/-- The register holds a code word whenever it holds a word (R24). -/
def HoldsCodeWord (s : State) : Prop := s.pw.valid = true → isCodeWord s.pw.data s.pw.ecc

/-- The host has no LOAD among its moves to come. -/
def NoLoadPending (s : State) : Prop := ∀ m ∈ s.host, HostMove.loadsNothing m = true

end Sys2Proof.Machine
end

