-- ==== Sys2Proof/Certificates/Slice0/Obligations.lean ====
section
/-!
DEFINITION. What is claimed of the block: statements for the provers, from the numbered rules of spec/. OBLIGATIONS.json
lists them in order with the rules they cite.
-/

open Sys2Proof Sys2Proof.Machine

/-! ## Reset and the life of the word -/

/-- R160: a reset move, at any state, leaves no word present and no response; and no command ever takes a word away, so reset
is the only way. The contents of the two fields are left open. -/
def Obligations.ResetIsTheOnlyWayToNoWord : Prop :=
  (∀ s : State, ∃ t, applyMove .reset s = .next t ∧ t.pw.valid = false ∧ rspValid t.rsp = false) ∧
  (∀ (c : Command) (s : State), ∃ t, applyMove (.command c) s = .next t ∧ (s.pw.valid = true → t.pw.valid = true))

/-- R35, R26, R70, R166: at `State.reset` no word is present, the ports show none, and no response is given. (The contents of
the two fields are the model's free values, log 3: nothing is said of them.) At every state the ports `pw_*_o` show the
register while a word is present and nothing otherwise (absent, log 6), and the ports `rsp_*_o` the response; and after an
error on a word they still show that word, with no response data. -/
def Obligations.ResetStateHoldsNoWord : Prop :=
  outputPorts State.reset =
    { pwValid := false, pwData := none, pwEcc := none, rspValid := false, rspStatus := none, rspData := none,
      rspEcc := none, rspPerr := none } ∧
  (∀ s : State, s.pw.valid = true → outputPorts s =
    { pwValid := true, pwData := some s.pw.data, pwEcc := some s.pw.ecc, rspValid := rspValid s.rsp,
      rspStatus := rspStatus s.rsp, rspData := rspData s.rsp, rspEcc := rspEcc s.rsp, rspPerr := rspPerr s.rsp }) ∧
  (∀ s : State, s.pw.valid = false → outputPorts s =
    { pwValid := false, pwData := none, pwEcc := none, rspValid := rspValid s.rsp,
      rspStatus := rspStatus s.rsp, rspData := rspData s.rsp, rspEcc := rspEcc s.rsp, rspPerr := rspPerr s.rsp }) ∧
  (∀ (i : Instr) (s t : State) (k : ErrorKind), exec i s = .next t → t.rsp = .failure k → s.pw.valid = true →
    outputPorts t =
      { pwValid := true, pwData := some s.pw.data, pwEcc := some s.pw.ecc, rspValid := true,
        rspStatus := some (errorCode k), rspData := none, rspEcc := none, rspPerr := none })

/-- R162: while no word is present ENCODE, LOAD and IDLE work, and DECODE and SYNDROME respond `NO_WORD`; after an ENCODE
or a LOAD they do not. `State.reset` is such a state. -/
def Obligations.BootNeedsAWordForDecodeAndSyndrome : Prop :=
  State.reset.pw.valid = false ∧
  ∀ (s : State) (d : Data) (e : Ecc), s.pw.valid = false →
    (∃ t, exec .idle s = .next t ∧ t.rsp = .noResponse) ∧
    (∃ t, exec (.encode d) s = .next t ∧ t.rsp = .answer .clean d (computeECC d) false ∧
      ∃ u v, exec .decode t = .next u ∧ exec .syndrome t = .next v ∧
        u.rsp ≠ .failure (.invariant .noWord) ∧ v.rsp ≠ .failure (.invariant .noWord)) ∧
    (∃ t, exec (.load d e) s = .next t ∧ t.rsp = .answer .clean d e false ∧
      ∃ u v, exec .decode t = .next u ∧ exec .syndrome t = .next v ∧
        u.rsp ≠ .failure (.invariant .noWord) ∧ v.rsp ≠ .failure (.invariant .noWord)) ∧
    (∃ t, exec .decode s = .next t ∧ t.rsp = .failure (.invariant .noWord)) ∧
    (∃ t, exec .syndrome s = .next t ∧ t.rsp = .failure (.invariant .noWord))

/-- R23: the valid bit is 0 from reset on, set by ENCODE and LOAD and cleared by no operation; and while it is 0 no operation
reads the contents of the word: two states that differ in them answer alike, and hold the same word once they hold one;
DECODE and SYNDROME respond `NO_WORD`. -/
def Obligations.ContentsAreNotReadWhileInvalid : Prop :=
  State.reset.pw.valid = false ∧ (∀ s : State, (takeReset s).pw.valid = false) ∧
  (∀ (i : Instr) (s : State), ∃ t, exec i s = .next t ∧
    (t.pw.valid = true ↔ s.pw.valid = true ∨ (∃ d, i = .encode d) ∨ ∃ d e, i = .load d e)) ∧
  (∀ (i : Instr) (s s' : State), s.pw.valid = false → s'.pw.valid = false →
    ∃ t t', exec i s = .next t ∧ exec i s' = .next t' ∧ t.rsp = t'.rsp ∧ t.pw.valid = t'.pw.valid ∧
      (t.pw.valid = true → t.pw = t'.pw)) ∧
  (∀ s : State, s.pw.valid = false →
    exec .decode s = .next { s with rsp := .failure (.invariant .noWord) } ∧
    exec .syndrome s = .next { s with rsp := .failure (.invariant .noWord) })

/-! ## What each operation does, with its frame -/

/-- R130: IDLE, code 000, reads and writes no state and gives no response. -/
def Obligations.IdleChangesNothing : Prop :=
  (∀ (d : Data) (e : Ecc), decodeCommand ⟨0b000, d, e⟩ = .idle) ∧
  (∀ s : State, exec .idle s = .next { s with rsp := .noResponse })

/-- R91: ENCODE, code 001 with `ecc_i` ignored, overwrites the whole word with the operand and its check bits, whatever it held, sets it valid, and
responds with it; all else is unchanged. -/
def Obligations.EncodeWritesOperandAndItsCheckBits : Prop :=
  (∀ (d : Data) (e : Ecc), decodeCommand ⟨0b001, d, e⟩ = .encode d) ∧
  (∀ (d : Data) (s : State), exec (.encode d) s =
    .next { s with pw := { valid := true, data := d, ecc := computeECC d }, rsp := .answer .clean d (computeECC d) false })

/-- R131: LOAD, code 100, writes both fields with the operands, unchecked, sets the word valid, and responds with it; all else is
unchanged. -/
def Obligations.LoadWritesOperandsUnchecked : Prop :=
  (∀ (d : Data) (e : Ecc), decodeCommand ⟨0b100, d, e⟩ = .load d e) ∧
  (∀ (d : Data) (e : Ecc) (s : State), exec (.load d e) s =
    .next { s with pw := { valid := true, data := d, ecc := e }, rsp := .answer .clean d e false })

/-- R132, R144: each reserved code, 101 to 111 with the operand ports ignored, responds `ILLEGAL_OP`, code 6, with no data, whether or not a word is present, and
changes no state; no other operation responds so. -/
def Obligations.ReservedCodesRespondIllegalOp : Prop :=
  (∀ (d : Data) (e : Ecc), decodeCommand ⟨0b101, d, e⟩ = .reserved5 ∧ decodeCommand ⟨0b110, d, e⟩ = .reserved6 ∧
    decodeCommand ⟨0b111, d, e⟩ = .reserved7) ∧
  (∀ s : State,
    exec .reserved5 s = .next { s with rsp := .failure (.invariant .illegalOp) } ∧
    exec .reserved6 s = .next { s with rsp := .failure (.invariant .illegalOp) } ∧
    exec .reserved7 s = .next { s with rsp := .failure (.invariant .illegalOp) }) ∧
  rspStatus (.failure (.invariant .illegalOp)) = some 6 ∧
  rspData (.failure (.invariant .illegalOp)) = none ∧ rspEcc (.failure (.invariant .illegalOp)) = none ∧
  (∀ (i : Instr) (s t : State), exec i s = .next t → t.rsp = .failure (.invariant .illegalOp) →
    i = .reserved5 ∨ i = .reserved6 ∨ i = .reserved7)

/-- R106: SYNDROME, code 011 with the operand ports ignored, on a word responds CLEAN with the expected check bits extended to 64 bits, the 8-bit syndrome, and the
overall parity error (the XOR of the two parities); without a word it responds `NO_WORD`; it changes no state. -/
def Obligations.SyndromeReportsAndChangesNothing : Prop :=
  (∀ (d : Data) (e : Ecc), decodeCommand ⟨0b011, d, e⟩ = .syndrome) ∧
  (∀ s : State,
    (s.pw.valid = true → exec .syndrome s =
      .next { s with rsp := .answer .clean ((computeECC s.pw.data).setWidth 64) (s.pw.ecc ^^^ computeECC s.pw.data)
                              (parity s.pw.data ^^ parity s.pw.ecc) }) ∧
    (s.pw.valid = false → exec .syndrome s = .next { s with rsp := .failure (.invariant .noWord) }))

/-- R143: DECODE and SYNDROME respond `NO_WORD` while no word is present, changing nothing; no other operation does, and
these do not once a word is present. -/
def Obligations.NoWordIsRaisedByDecodeAndSyndromeOnly : Prop :=
  (∀ s : State, s.pw.valid = false →
    exec .decode s = .next { s with rsp := .failure (.invariant .noWord) } ∧
    exec .syndrome s = .next { s with rsp := .failure (.invariant .noWord) }) ∧
  (∀ (i : Instr) (s t : State), exec i s = .next t → t.rsp = .failure (.invariant .noWord) →
    s.pw.valid = false ∧ t.pw.valid = false ∧ (i = .decode ∨ i = .syndrome))

/-- R110: DECODE, code 010 with the operand ports ignored, answers a next state at every state: without a word the error
`NO_WORD`; on a word exactly what the pseudocode gives for the four cases, and in each all else is unchanged. -/
def Obligations.DecodeFollowsThePseudocode : Prop :=
  (∀ (d : Data) (e : Ecc), decodeCommand ⟨0b010, d, e⟩ = .decode) ∧
  (∀ s : State, exec .decode s = .next
    (if s.pw.valid = false then { s with rsp := .failure (.invariant .noWord) }
    else
      let syndrome := s.pw.ecc ^^^ computeECC s.pw.data
      let h : HamSyn := syndrome.extractLsb' 0 7
      let perr := parity s.pw.data ^^ parity s.pw.ecc
      let recomputed : State := { s with
        pw := { s.pw with ecc := computeECC s.pw.data }
        rsp := .answer .correctedEcc s.pw.data (computeECC s.pw.data) false }
      if h = 0 ∧ perr = false then { s with rsp := .answer .clean s.pw.data s.pw.ecc false }
      else if perr = true ∧ h ≠ 0 then
        if popcount h = 1 then recomputed
        else
          match positionToDataBit h with
          | none => { s with rsp := .failure (.invariant .table) }
          | some b =>
            let d' := s.pw.data ^^^ (1#64 <<< b.val)
            { s with pw := { s.pw with data := d', ecc := computeECC d' }
                     rsp := .answer .correctedData d' (computeECC d') false }
      else if perr = true ∧ h = 0 then recomputed
      else { s with rsp := .failure .uncorrectable }))

/-- R112: with no Hamming syndrome and no parity error DECODE answers the word as it is, status CLEAN, and rewrites
nothing; that case holds exactly when the word is a code word. -/
def Obligations.DecodeOfCleanWordAnswersIt : Prop :=
  (∀ s : State, s.pw.valid = true → hammingSyndrome s.pw.data s.pw.ecc = 0 → parityError s.pw.data s.pw.ecc = false →
    exec .decode s = .next { s with rsp := .answer .clean s.pw.data s.pw.ecc false }) ∧
  (∀ (d : Data) (e : Ecc), (hammingSyndrome d e = 0 ∧ parityError d e = false) ↔ isCodeWord d e)

/-- R113: with a parity error and a power-of-two syndrome DECODE leaves the data, overwrites `ecc` with the check bits of
the data, and answers CORRECTED_ECC. -/
def Obligations.DecodeAtParitySlotRewritesEcc : Prop :=
  ∀ (s : State) (k : Fin 7), s.pw.valid = true → parityError s.pw.data s.pw.ecc = true →
    (hammingSyndrome s.pw.data s.pw.ecc).toNat = 2 ^ k.val →
    exec .decode s = .next { s with
      pw := { valid := true, data := s.pw.data, ecc := computeECC s.pw.data }
      rsp := .answer .correctedEcc s.pw.data (computeECC s.pw.data) false }

/-- R114: with a parity error and a syndrome that addresses data bit `b`, DECODE inverts that bit, overwrites `ecc` with
the check bits of the new data, and answers CORRECTED_DATA; the syndromes that do so are the 64 values of [3,71] that
are not powers of two. -/
def Obligations.DecodeAtDataBitInvertsIt : Prop :=
  (∀ (s : State) (b : Fin 64), s.pw.valid = true → parityError s.pw.data s.pw.ecc = true →
    positionToDataBit (hammingSyndrome s.pw.data s.pw.ecc) = some b →
    exec .decode s = .next { s with
      pw := { valid := true, data := s.pw.data ^^^ (1#64 <<< b.val), ecc := computeECC (s.pw.data ^^^ (1#64 <<< b.val)) }
      rsp := .answer .correctedData (s.pw.data ^^^ (1#64 <<< b.val)) (computeECC (s.pw.data ^^^ (1#64 <<< b.val))) false }) ∧
  (∀ p : HamSyn, (positionToDataBit p).isSome = true ↔ 3 ≤ p.toNat ∧ p.toNat ≤ 71 ∧ ∀ k : Fin 7, p.toNat ≠ 2 ^ k.val)

/-- R115: with a parity error and no Hamming syndrome DECODE leaves the data, overwrites `ecc` with the check bits of the
data (only bit 7 differs), and answers CORRECTED_ECC. -/
def Obligations.DecodeOfOverallParityBitRewritesEcc : Prop :=
  ∀ s : State, s.pw.valid = true → parityError s.pw.data s.pw.ecc = true → hammingSyndrome s.pw.data s.pw.ecc = 0 →
    exec .decode s = .next { s with
      pw := { valid := true, data := s.pw.data, ecc := computeECC s.pw.data }
      rsp := .answer .correctedEcc s.pw.data (computeECC s.pw.data) false } ∧
    s.pw.ecc ^^^ computeECC s.pw.data = 0x80

/-- R116: with a Hamming syndrome and no parity error DECODE responds `UNCORRECTABLE`, with no data, and leaves the
word as it is. -/
def Obligations.DecodeOfEvenErrorIsUncorrectable : Prop :=
  ∀ s : State, s.pw.valid = true → parityError s.pw.data s.pw.ecc = false → hammingSyndrome s.pw.data s.pw.ecc ≠ 0 →
    exec .decode s = .next { s with rsp := .failure .uncorrectable }

/-- R117: with a parity error and a syndrome in [72,127] DECODE responds `INVARIANT_TABLE`, with no data, and leaves
the word as it is; of the values [1,127] that are not powers of two, the lookup gives `NONE` exactly on these. -/
def Obligations.DecodeBeyondLastPositionIsInvariantTable : Prop :=
  (∀ s : State, s.pw.valid = true → parityError s.pw.data s.pw.ecc = true →
    72 ≤ (hammingSyndrome s.pw.data s.pw.ecc).toNat →
    (∀ k : Fin 7, (hammingSyndrome s.pw.data s.pw.ecc).toNat ≠ 2 ^ k.val) ∧
    exec .decode s = .next { s with rsp := .failure (.invariant .table) }) ∧
  (∀ p : HamSyn, 1 ≤ p.toNat → (∀ k : Fin 7, p.toNat ≠ 2 ^ k.val) → (positionToDataBit p = none ↔ 72 ≤ p.toNat)) ∧
  (∀ (i : Instr) (s t : State), exec i s = .next t → t.rsp = .failure (.invariant .table) →
    i = .decode ∧ s.pw.valid = true ∧ parityError s.pw.data s.pw.ecc = true ∧
      72 ≤ (hammingSyndrome s.pw.data s.pw.ecc).toNat)

/-- R25: the complete list of the writers of the register, command by command; a reset clears the valid bit. -/
def Obligations.RegisterIsWrittenOnlyAsListed : Prop :=
  (∀ s : State, (takeReset s).pw.valid = false) ∧
  (∀ (i : Instr) (s : State), ∃ t, exec i s = .next t ∧
    (∀ d, i = .encode d → t.pw = ⟨true, d, computeECC d⟩) ∧
    (∀ d e, i = .load d e → t.pw = ⟨true, d, e⟩) ∧
    (i = .idle ∨ i = .syndrome ∨ i = .reserved5 ∨ i = .reserved6 ∨ i = .reserved7 → t.pw = s.pw) ∧
    (i = .decode →
      t.pw.valid = s.pw.valid ∧
      ((∃ d e p, t.rsp = .answer .correctedData d e p) →
        popcount (t.pw.data ^^^ s.pw.data) = 1 ∧ t.pw.ecc = computeECC t.pw.data ∧ t.pw.ecc = s.pw.ecc) ∧
      ((∃ d e p, t.rsp = .answer .correctedEcc d e p) →
        t.pw.data = s.pw.data ∧ t.pw.ecc = computeECC t.pw.data ∧ popcount (t.pw.ecc ^^^ s.pw.ecc) = 1) ∧
      ((∀ d e p, t.rsp ≠ .answer .correctedData d e p) → (∀ d e p, t.rsp ≠ .answer .correctedEcc d e p) → t.pw = s.pw)))

/-- R76: the response binding of every command: each port carries what the table says, and a port with "no value" is
absent. -/
def Obligations.ResponsePortsFollowTheBinding : Prop :=
  ∀ s : State,
    (∃ t, exec .idle s = .next t ∧ rspValid t.rsp = false ∧ rspStatus t.rsp = none ∧ rspData t.rsp = none ∧
      rspEcc t.rsp = none ∧ rspPerr t.rsp = none) ∧
    (∀ d, ∃ t, exec (.encode d) s = .next t ∧ rspValid t.rsp = true ∧ rspStatus t.rsp = some 0 ∧ rspData t.rsp = some d ∧
      rspEcc t.rsp = some (computeECC d) ∧ rspPerr t.rsp = some false) ∧
    (∀ d e, ∃ t, exec (.load d e) s = .next t ∧ rspValid t.rsp = true ∧ rspStatus t.rsp = some 0 ∧ rspData t.rsp = some d ∧
      rspEcc t.rsp = some e ∧ rspPerr t.rsp = some false) ∧
    (∃ t, exec .syndrome s = .next t ∧ rspValid t.rsp = true ∧
      (s.pw.valid = true → rspStatus t.rsp = some 0 ∧ rspData t.rsp = some ((computeECC s.pw.data).setWidth 64) ∧
        rspEcc t.rsp = some (s.pw.ecc ^^^ computeECC s.pw.data) ∧
        rspPerr t.rsp = some (parityError s.pw.data s.pw.ecc)) ∧
      (s.pw.valid = false → rspStatus t.rsp = some 5 ∧ rspData t.rsp = none ∧ rspEcc t.rsp = none ∧ rspPerr t.rsp = none)) ∧
    (∃ t, exec .decode s = .next t ∧ rspValid t.rsp = true ∧
      (s.pw.valid = true →
        ((rspStatus t.rsp = some 0 ∨ rspStatus t.rsp = some 1 ∨ rspStatus t.rsp = some 2) ∧ rspData t.rsp = some t.pw.data ∧
          rspEcc t.rsp = some t.pw.ecc ∧ rspPerr t.rsp = some false) ∨
        ((rspStatus t.rsp = some 3 ∨ rspStatus t.rsp = some 4) ∧ rspData t.rsp = none ∧ rspEcc t.rsp = none ∧
          rspPerr t.rsp = none)) ∧
      (s.pw.valid = false → rspStatus t.rsp = some 5 ∧ rspData t.rsp = none ∧ rspEcc t.rsp = none ∧ rspPerr t.rsp = none)) ∧
    (∀ i, i = .reserved5 ∨ i = .reserved6 ∨ i = .reserved7 → ∃ t, exec i s = .next t ∧ rspValid t.rsp = true ∧
      rspStatus t.rsp = some 6 ∧ rspData t.rsp = none ∧ rspEcc t.rsp = none ∧ rspPerr t.rsp = none)

/-- R140: the status codes are 0 to 6 as the table gives them, one code per status and none for 7; codes 0 to 2 are the
successes, 3 the business error, 4 to 6 the internal kind, so a host tells the kinds apart by the code alone. -/
def Obligations.StatusCodesTellTheKindsApart : Prop :=
  successCode .clean = 0 ∧ successCode .correctedData = 1 ∧ successCode .correctedEcc = 2 ∧
  errorCode .uncorrectable = 3 ∧ errorCode (.invariant .table) = 4 ∧ errorCode (.invariant .noWord) = 5 ∧
  errorCode (.invariant .illegalOp) = 6 ∧
  (∀ a b : Status, statusCode a = statusCode b → a = b) ∧
  (∀ a : Status, statusCode a ≠ 7) ∧
  (∀ a : Status, (∃ st, a = .success st) ↔ (statusCode a).toNat ≤ 2) ∧
  (∀ a : Status, (∃ c, a = .error (.invariant c)) ↔ 4 ≤ (statusCode a).toNat)

/-- R145: every operation completes at every state; ENCODE, LOAD and IDLE raise nothing, and SYNDROME raises nothing but
`NO_WORD`. -/
def Obligations.EncodeLoadAndIdleCannotFail : Prop :=
  ∀ (i : Instr) (s : State), ∃ t, exec i s = .next t ∧
    ((i = .idle ∨ (∃ d, i = .encode d) ∨ ∃ d e, i = .load d e) → ∀ k, t.rsp ≠ .failure k) ∧
    (i = .syndrome → ∀ k, t.rsp = .failure k → k = .invariant .noWord)

/-- R147: the errors of a step in their fixed order: a reserved code gives `ILLEGAL_OP` whatever else holds; otherwise DECODE
and SYNDROME without a word give `NO_WORD`; otherwise SYNDROME gives no error, and DECODE the status of its classification. -/
def Obligations.ErrorsHaveAFixedPriority : Prop :=
  ∀ (c : Command) (s : State),
    (5 ≤ c.op.toNat → ∃ t, exec (decodeCommand c) s = .next t ∧ t.rsp = .failure (.invariant .illegalOp)) ∧
    (c.op = 2 ∨ c.op = 3 → s.pw.valid = false →
      ∃ t, exec (decodeCommand c) s = .next t ∧ t.rsp = .failure (.invariant .noWord)) ∧
    (c.op = 3 → s.pw.valid = true → ∃ t, exec (decodeCommand c) s = .next t ∧ ∀ k, t.rsp ≠ .failure k) ∧
    (c.op = 2 → s.pw.valid = true → ∃ t, exec (decodeCommand c) s = .next t ∧
      ∀ k, t.rsp = .failure k ↔ (hammingEccDecoder s.pw.data s.pw.ecc).status = .error k)

/-- R80: while a word is present each pseudo-command expands to the one LOAD whose operands are the fields of the word with its
pattern XORed onto them, for a bit index in range, and that LOAD writes and answers them; otherwise it has no expansion. -/
def Obligations.PseudoCommandsXorTheWord : Prop :=
  (∀ (s : State) (b : Nat), s.pw.valid = true → b < 64 →
    expandPseudo (.flipD b) s = some (.load (s.pw.data ^^^ (1#64 <<< b)) s.pw.ecc) ∧
    exec (.load (s.pw.data ^^^ (1#64 <<< b)) s.pw.ecc) s =
      .next { s with pw := ⟨true, s.pw.data ^^^ (1#64 <<< b), s.pw.ecc⟩
                     rsp := .answer .clean (s.pw.data ^^^ (1#64 <<< b)) s.pw.ecc false }) ∧
  (∀ (s : State) (k : Nat), s.pw.valid = true → k < 8 →
    expandPseudo (.flipE k) s = some (.load s.pw.data (s.pw.ecc ^^^ (1#8 <<< k))) ∧
    exec (.load s.pw.data (s.pw.ecc ^^^ (1#8 <<< k))) s =
      .next { s with pw := ⟨true, s.pw.data, s.pw.ecc ^^^ (1#8 <<< k)⟩
                     rsp := .answer .clean s.pw.data (s.pw.ecc ^^^ (1#8 <<< k)) false }) ∧
  (∀ (s : State) (xd : Data) (xe : Ecc), s.pw.valid = true →
    expandPseudo (.xorW xd xe) s = some (.load (s.pw.data ^^^ xd) (s.pw.ecc ^^^ xe)) ∧
    exec (.load (s.pw.data ^^^ xd) (s.pw.ecc ^^^ xe)) s =
      .next { s with pw := ⟨true, s.pw.data ^^^ xd, s.pw.ecc ^^^ xe⟩
                     rsp := .answer .clean (s.pw.data ^^^ xd) (s.pw.ecc ^^^ xe) false }) ∧
  (∀ (s : State) (p : Pseudo), s.pw.valid = false → expandPseudo p s = none) ∧
  (∀ (s : State) (n : Nat), (64 ≤ n → expandPseudo (.flipD n) s = none) ∧ (8 ≤ n → expandPseudo (.flipE n) s = none))

/-! ## Encodings -/

/-- A step carries out the host's next move: the decoded command at the state with that move taken, a reset, or IDLE when
the host has no move (log 2); and a command word put where a step takes its move from is the very next to run. -/
def Obligations.StepRunsTheDecodedCommand : Prop :=
  (∀ (s : State) (c : Command) (rest : List HostMove), s.host = .command c :: rest →
    step s = exec (decodeCommand c) { s with host := rest }) ∧
  (∀ (s : State) (rest : List HostMove), s.host = .reset :: rest → step s = .next (takeReset { s with host := rest })) ∧
  (∀ s : State, s.host = [] → step s = exec .idle s) ∧
  (∀ (s : State) (nbits w : Nat) (i : Instr), decodeTableWord nbits w = some i → step (s.withFetchWord nbits w) = exec i s)

/-- Command words written out from R73 decode to the commands they stand for. -/
def Obligations.WrittenOutWordsDecode : Prop :=
  decodeTableWord 8 0b000 = some .idle ∧
  decodeTableWord 67 (0b001 + 0xDEADBEEFCAFEBABE * 2 ^ 3) = some (.encode 0xDEADBEEFCAFEBABE) ∧
  decodeTableWord 8 0b010 = some .decode ∧
  decodeTableWord 8 0b011 = some .syndrome ∧
  decodeTableWord 75 (0b100 + 0xDEADBEEFCAFEBABB * 2 ^ 3 + 0x3A * 2 ^ 67) = some (.load 0xDEADBEEFCAFEBABB 0x3A) ∧
  decodeTableWord 8 0b101 = some .reserved5 ∧
  decodeTableWord 8 0b110 = some .reserved6 ∧
  decodeTableWord 8 0b111 = some .reserved7

/-- Decoding inverts encoding for every instruction, with every operand at every value, on the ports and on command words;
and packing the ports into a word loses no bit. -/
def Obligations.DecodeInvertsEncode : Prop :=
  (∀ i : Instr, i.wellFormed = true → decodeCommand (encodeCommand i) = i ∧
    decodeTableWord 75 (encodeWord i).toNat = some i) ∧
  (∀ c : Command, commandOfWord (wordOfCommand c) = c) ∧
  (∀ w : BitVec 75, wordOfCommand (commandOfWord w) = w) ∧
  (∀ w : Nat, 2 ^ 75 ≤ w → decodeNat w = .error .beyondThePorts)

/-- R73: `op_i` alone selects the command, and an operand port that the command's format does not read changes nothing. -/
def Obligations.UnreadOperandPortsAreIgnored : Prop :=
  (∀ c : Command, (decodeCommand c).opCode = c.op) ∧
  (∀ (c : Command) (d : Data) (e : Ecc), (decodeCommand c).format = .N → decodeCommand { c with data := d, ecc := e } = decodeCommand c) ∧
  (∀ (c : Command) (e : Ecc), (decodeCommand c).format = .D → decodeCommand { c with ecc := e } = decodeCommand c) ∧
  (∀ c : Command, (decodeCommand c).format = .D ↔ c.op = 1) ∧
  (∀ c : Command, (decodeCommand c).format = .W ↔ c.op = 4) ∧
  (∀ (d : Data) (e : Ecc),
    decodeCommand ⟨0, d, e⟩ = .idle ∧ decodeCommand ⟨1, d, e⟩ = .encode d ∧ decodeCommand ⟨2, d, e⟩ = .decode ∧
    decodeCommand ⟨3, d, e⟩ = .syndrome ∧ decodeCommand ⟨4, d, e⟩ = .load d e ∧ decodeCommand ⟨5, d, e⟩ = .reserved5 ∧
    decodeCommand ⟨6, d, e⟩ = .reserved6 ∧ decodeCommand ⟨7, d, e⟩ = .reserved7)

/-! ## The Coverage Table -/

/-- The placement of R63, with its closed form and its table, which the spec marks as derived: the positions of the data bits ascend through the values of [1,71] that are not powers of two, every such value
hosts a bit, and the closed form gives it back; with the check bits the rule lists for each single data bit. -/
def Obligations.DataBitsTakeAscendingPositions : Prop :=
  (∀ a b : Fin 64, a < b → (pos a).toNat < (pos b).toNat) ∧
  (∀ b : Fin 64, 1 ≤ (pos b).toNat ∧ (pos b).toNat ≤ 71 ∧ ∀ k : Fin 7, (pos b).toNat ≠ 2 ^ k.val) ∧
  (∀ p : Fin 72, 1 ≤ p.val → (∀ k : Fin 7, p.val ≠ 2 ^ k.val) → ∃ b : Fin 64, (pos b).toNat = p.val) ∧
  (∀ b : Fin 64, hostedBit (pos b).toNat = b.val) ∧
  (List.finRange 64).map (fun b => computeECC (1#64 <<< b.val)) =
    [0x83, 0x85, 0x86, 0x07, 0x89, 0x8A, 0x0B, 0x8C, 0x0D, 0x0E, 0x8F, 0x91, 0x92, 0x13, 0x94, 0x15] ++
    [0x16, 0x97, 0x98, 0x19, 0x1A, 0x9B, 0x1C, 0x9D, 0x9E, 0x1F, 0xA1, 0xA2, 0x23, 0xA4, 0x25, 0x26] ++
    [0xA7, 0xA8, 0x29, 0x2A, 0xAB, 0x2C, 0xAD, 0xAE, 0x2F, 0xB0, 0x31, 0x32, 0xB3, 0x34, 0xB5, 0xB6] ++
    [0x37, 0x38, 0xB9, 0xBA, 0x3B, 0xBC, 0x3D, 0x3E, 0xBF, 0xC1, 0xC2, 0x43, 0xC4, 0x45, 0x46, 0xC7]

/-- The masks of R65, whose values the spec marks as derived: bit `b` of `coverageMask(k)` is bit `k` of `pos(b)`: the constants follow the interleaving rule; with the
seven values, and how many bits each sets. -/
def Obligations.MasksFollowTheInterleavingRule : Prop :=
  (∀ (k : Fin 7) (b : Fin 64), (coverageMask k).getLsbD b.val = (pos b).getLsbD k.val) ∧
  (List.finRange 7).map coverageMask = [0xAB55555556AAAD5B, 0xCD9999999B33366D, 0xF1E1E1E1E3C3C78E, 0x01FE01FE03FC07F0,
    0x01FFFE0003FFF800, 0x01FFFFFFFC000000, 0xFE00000000000000] ∧
  (List.finRange 7).map (fun k => popcount (coverageMask k)) = [35, 35, 35, 31, 31, 31, 7]

/-- The table of R67, whose entries on [1,71] the spec marks as derived: the position table gives the hosted data bit on [1,71] and `NONE` at parity slots, at 0 and on [72,127]; it inverts
`pos`. -/
def Obligations.PositionTableInvertsPositions : Prop :=
  (∀ b : Fin 64, positionToDataBit (pos b) = some b) ∧
  (∀ (p : HamSyn) (b : Fin 64), positionToDataBit p = some b → pos b = p) ∧
  (∀ p : HamSyn, positionToDataBit p = none ↔ p.toNat = 0 ∨ 72 ≤ p.toNat ∨ ∃ k : Fin 7, p.toNat = 2 ^ k.val) ∧
  positionTable.length = 128

/-- R66: the two views of the Coverage Table agree. For every position in [1,71] that is not a power of two, the table
names the data bit whose participation pattern is the position; every data bit appears at exactly one position; the
participation patterns are distinct, not zero and not powers of two. -/
def Obligations.CoverageTableViewsAgree : Prop :=
  (∀ p : HamSyn, 1 ≤ p.toNat → p.toNat ≤ 71 → (∀ k : Fin 7, p.toNat ≠ 2 ^ k.val) →
    ∃ b : Fin 64, positionToDataBit p = some b ∧ ∀ k : Fin 7, p.getLsbD k.val = (coverageMask k).getLsbD b.val) ∧
  (∀ b : Fin 64, ∃ p : HamSyn, positionToDataBit p = some b ∧ ∀ q : HamSyn, positionToDataBit q = some b → q = p) ∧
  (∀ a b : Fin 64, (∀ k : Fin 7, (coverageMask k).getLsbD a.val = (coverageMask k).getLsbD b.val) → a = b) ∧
  (∀ b : Fin 64, ∃ j k : Fin 7, j ≠ k ∧ (coverageMask j).getLsbD b.val = true ∧ (coverageMask k).getLsbD b.val = true)

/-- R69: the code-word view names each of the 72 bits once, and a flip at a position inverts that bit of the view and no
other. -/
def Obligations.FlipInvertsOneBitOfTheView : Prop :=
  (∀ (d : Data) (e : Ecc), codeWordBit d e 0 = e.getLsbD 7) ∧
  (∀ (d : Data) (e : Ecc) (k : Fin 7) (p : Fin 72), p.val = 2 ^ k.val → codeWordBit d e p = e.getLsbD k.val) ∧
  (∀ (d : Data) (e : Ecc) (b : Fin 64) (p : Fin 72), p.val = (pos b).toNat → codeWordBit d e p = d.getLsbD b.val) ∧
  (∀ (d : Data) (e : Ecc) (p q : Fin 72),
    codeWordBit (d ^^^ flipDataPattern p) (e ^^^ flipEccPattern p) q = (codeWordBit d e q ^^ decide (p = q)))

/-! ## The code -/

/-- R10: a 7-bit value has exactly one bit set exactly when it is one of the seven powers of two. -/
def Obligations.PowerOfTwoTestIsTheList : Prop :=
  (∀ p : HamSyn, isPow2 p = true ↔ popcount p = 1) ∧
  (∀ p : HamSyn, isPow2 p = true ↔ p.toNat ∈ [1, 2, 4, 8, 16, 32, 64]) ∧
  isPow2 (0 : HamSyn) = false

/-- R102: the parity error is the parity of the 72 stored bits, and the XOR of the parities of the two fields; the count is at
most 72. -/
def Obligations.ParityErrorIsParityOfAllStoredBits : Prop :=
  ∀ (d : Data) (e : Ecc),
    parityError d e = (parity d ^^ parity e) ∧
    (parityError d e = true ↔ popcount (cw72 d e) % 2 = 1) ∧
    popcount (cw72 d e) = popcount d + popcount e ∧ popcount d + popcount e ≤ 72

/-- R90: each Hamming bit of `computeECC` is 1 exactly when the count its mask selects is odd; bit 7 is 1 exactly when the
count of the data and the seven bits together is odd, so that it makes their total even. -/
def Obligations.ComputeEccSetsEachParity : Prop :=
  ∀ d : Data,
    (∀ k : Fin 7, (computeECC d).getLsbD k.val = true ↔ popcount (d &&& coverageMask k) % 2 = 1) ∧
    ((computeECC d).getLsbD 7 = true ↔ (popcount d + popcount ((computeECC d).extractLsb' 0 7)) % 2 = 1)

/-- Sentences the spec marks as derived: the 72 bits of a data word and its check bits have an even count; with the three
values it works out, among them the reference value of 0xDEADBEEFCAFEBABE. -/
def Obligations.EncodedWordsHaveAnEvenBitCount : Prop :=
  computeECC 0x0000000000000000 = 0x00 ∧ computeECC 0xFFFFFFFFFFFFFFFF = 0xFF ∧ computeECC 0xDEADBEEFCAFEBABE = 0x3A ∧
  ∀ d : Data, (popcount d + popcount (computeECC d)) % 2 = 0

/-- Marked as derived in the spec (R92): `computeECC` is linear; on a single data bit it is the bit's position with the parity that completes it; and it is
the XOR of these over the set bits. -/
def Obligations.ComputeEccIsLinear : Prop :=
  computeECC 0 = 0 ∧
  (∀ a b : Data, computeECC (a ^^^ b) = computeECC a ^^^ computeECC b) ∧
  (∀ b : Fin 64, (computeECC (1#64 <<< b.val)).extractLsb' 0 7 = pos b ∧
    ((computeECC (1#64 <<< b.val)).getLsbD 7 = true ↔ (1 + popcount (pos b)) % 2 = 1)) ∧
  (∀ d : Data, computeECC d =
    (List.finRange 64).foldr (fun b x => (if d.getLsbD b.val then computeECC (1#64 <<< b.val) else 0) ^^^ x) 0) ∧
  (∀ d : Data, (computeECC d).extractLsb' 0 7 =
    (List.finRange 64).foldr (fun b x => (if d.getLsbD b.val then pos b else 0) ^^^ x) 0)

/-- R105: the outputs of the block `syndrome_calculator`. -/
def Obligations.SyndromeCalculatorOutputs : Prop :=
  ∀ (d : Data) (e : Ecc),
    (syndromeCalculator d e).expected = computeECC d ∧
    (syndromeCalculator d e).syndrome = e ^^^ computeECC d ∧
    (∀ k : Fin 7, (syndromeCalculator d e).hsyn.getLsbD k.val = (e.getLsbD k.val ^^ (computeECC d).getLsbD k.val)) ∧
    (syndromeCalculator d e).perr = (parity d ^^ parity e)

/-- Marked as derived in the spec (R103): bit 7 of the syndrome is the parity error XOR the parity of the Hamming syndrome; the syndrome is zero exactly when
both conditions are clear, that is, exactly on code words. -/
def Obligations.SyndromeBitSevenIsNotTheParityError : Prop :=
  ∀ (d : Data) (e : Ecc),
    (syndromeOf d e).getLsbD 7 = (parityError d e ^^ parity (hammingSyndrome d e)) ∧
    ((syndromeOf d e).getLsbD 7 = parityError d e ↔ popcount (hammingSyndrome d e) % 2 = 0) ∧
    (syndromeOf d e = 0 ↔ hammingSyndrome d e = 0 ∧ parityError d e = false) ∧
    (syndromeOf d e = 0 ↔ isCodeWord d e)

/-- Marked as derived in the spec (R104): the syndrome law. Flipping a code word by any pattern gives a Hamming syndrome and a parity error that depend on
the pattern alone; in the position view, the XOR of the flipped positions and the parity of their number. -/
def Obligations.SyndromeLawForFlippedBits : Prop :=
  (∀ (d : Data) (e : Ecc) (xd : Data) (xe : Ecc), isCodeWord d e →
    hammingSyndrome (d ^^^ xd) (e ^^^ xe) = xe.extractLsb' 0 7 ^^^ (computeECC xd).extractLsb' 0 7 ∧
    parityError (d ^^^ xd) (e ^^^ xe) = (parity xd ^^ parity xe)) ∧
  (∀ (d : Data) (e : Ecc) (ps : List (Fin 72)), isCodeWord d e →
    hammingSyndrome (d ^^^ flipsData ps) (e ^^^ flipsEcc ps) = xorPositions ps ∧
    (parityError (d ^^^ flipsData ps) (e ^^^ flipsEcc ps) = true ↔ ps.length % 2 = 1))

/-- R2: two distinct code words differ in at least four of the 72 bits, and some differ in exactly four. -/
def Obligations.CodeWordsDifferInFourBitsOrMore : Prop :=
  (∀ (d d' : Data) (e e' : Ecc), isCodeWord d e → isCodeWord d' e' → d ≠ d' → 4 ≤ popcount (cw72 d e ^^^ cw72 d' e')) ∧
  (∃ (d d' : Data) (e e' : Ecc), isCodeWord d e ∧ isCodeWord d' e' ∧ popcount (cw72 d e ^^^ cw72 d' e') = 4)

/-! ## The decoder -/

/-- R111: the classification as a table over the Hamming syndrome and the parity error. -/
def Obligations.ClassificationFollowsTheTable : Prop :=
  ∀ (d : Data) (e : Ecc),
    (hammingSyndrome d e = 0 → parityError d e = false → (hammingEccDecoder d e).status = .success .clean) ∧
    ((∃ k : Fin 7, (hammingSyndrome d e).toNat = 2 ^ k.val) → parityError d e = true →
      (hammingEccDecoder d e).status = .success .correctedEcc) ∧
    (3 ≤ (hammingSyndrome d e).toNat → (hammingSyndrome d e).toNat ≤ 71 →
      (∀ k : Fin 7, (hammingSyndrome d e).toNat ≠ 2 ^ k.val) → parityError d e = true →
      (hammingEccDecoder d e).status = .success .correctedData) ∧
    (72 ≤ (hammingSyndrome d e).toNat → parityError d e = true →
      (hammingEccDecoder d e).status = .error (.invariant .table)) ∧
    (hammingSyndrome d e = 0 → parityError d e = true → (hammingEccDecoder d e).status = .success .correctedEcc) ∧
    (hammingSyndrome d e ≠ 0 → parityError d e = false → (hammingEccDecoder d e).status = .error .uncorrectable)

/-- R125: the block `hamming_ecc_decoder` gives status codes 0 to 4 only; its word equals its input when nothing is
rewritten; it rewrites exactly on a correction; and DECODE on a word is the block around the register, its data being the result
data when the status is a success. -/
def Obligations.DecoderBlockIsDecodeOnTheWord : Prop :=
  (∀ (d : Data) (e : Ecc),
    (statusCode (hammingEccDecoder d e).status).toNat ≤ 4 ∧
    ((hammingEccDecoder d e).rewrite = false → (hammingEccDecoder d e).data = d ∧ (hammingEccDecoder d e).ecc = e) ∧
    ((hammingEccDecoder d e).rewrite = true ↔
      (hammingEccDecoder d e).status = .success .correctedData ∨ (hammingEccDecoder d e).status = .success .correctedEcc)) ∧
  (∀ s : State, s.pw.valid = true → ∃ t, exec .decode s = .next t ∧
    t.pw = ⟨true, (hammingEccDecoder s.pw.data s.pw.ecc).data, (hammingEccDecoder s.pw.data s.pw.ecc).ecc⟩ ∧
    rspStatus t.rsp = some (statusCode (hammingEccDecoder s.pw.data s.pw.ecc).status) ∧
    rspData t.rsp = if (statusCode (hammingEccDecoder s.pw.data s.pw.ecc).status).toNat ≤ 2
      then some (hammingEccDecoder s.pw.data s.pw.ecc).data else none)

/-- Marked as derived in the spec (R118): on every correcting branch exactly one of the 72 bits changes value and the result is a code word; at a parity slot
it is that `ecc` bit, at a data position that data bit with `ecc` keeping its value, and otherwise `ecc` bit 7. -/
def Obligations.CorrectionChangesExactlyOneBit : Prop :=
  ∀ (d : Data) (e : Ecc), (hammingEccDecoder d e).rewrite = true →
    popcount (cw72 d e ^^^ cw72 (hammingEccDecoder d e).data (hammingEccDecoder d e).ecc) = 1 ∧
    isCodeWord (hammingEccDecoder d e).data (hammingEccDecoder d e).ecc ∧
    (∀ k : Fin 7, (hammingSyndrome d e).toNat = 2 ^ k.val →
      (hammingEccDecoder d e).data = d ∧ (hammingEccDecoder d e).ecc = e ^^^ (1#8 <<< k.val)) ∧
    (∀ b : Fin 64, positionToDataBit (hammingSyndrome d e) = some b →
      (hammingEccDecoder d e).data = d ^^^ (1#64 <<< b.val) ∧ (hammingEccDecoder d e).ecc = e) ∧
    (hammingSyndrome d e = 0 → (hammingEccDecoder d e).data = d ∧ (hammingEccDecoder d e).ecc = e ^^^ 0x80)

/-- R125, R118: the construction that inverts one bit of `ecc_i` instead of recomputing the check bits is the same block. -/
def Obligations.InvertingDecoderRefinesTheDecoder : Prop :=
  ∀ (d : Data) (e : Ecc), invertingDecoder d e = hammingEccDecoder d e

/-- R119: DECODE corrects at most one bit per call and rewrites the word only with a correction; a clean answer and every
error leave all of it, and an error carries no data. -/
def Obligations.DecodeMutatesOnlyOnCorrection : Prop :=
  ∀ s t : State, exec .decode s = .next t →
    popcount (cw72 s.pw.data s.pw.ecc ^^^ cw72 t.pw.data t.pw.ecc) ≤ 1 ∧
    ((∃ d e p, t.rsp = .answer .clean d e p) → t.pw = s.pw) ∧
    ((∃ k, t.rsp = .failure k) → t.pw = s.pw ∧ rspData t.rsp = none ∧ rspEcc t.rsp = none) ∧
    (t.pw ≠ s.pw → ∃ d e p, t.rsp = .answer .correctedData d e p ∨ t.rsp = .answer .correctedEcc d e p)

/-- R120: a successful DECODE answers the data after the step, which is the old data but on CORRECTED_DATA, where one bit is
inverted; an error answers no data. -/
def Obligations.DecodeAnswersTheDataAfterTheStep : Prop :=
  ∀ s t : State, exec .decode s = .next t →
    (∀ st d e p, t.rsp = .answer st d e p → d = t.pw.data ∧ e = t.pw.ecc ∧ p = false ∧
      (st ≠ .correctedData → d = s.pw.data) ∧ (st = .correctedData → ∃ b : Fin 64, d = s.pw.data ^^^ (1#64 <<< b.val))) ∧
    (∀ k, t.rsp = .failure k → rspData t.rsp = none)

/-- Marked as derived in the spec (R24): after an ENCODE, and after a DECODE that answers a status, the register holds a code word; a LOAD may leave one that
is none, and a DECODE that responds `UNCORRECTABLE` or `INVARIANT_TABLE` leaves the word, which is none. -/
def Obligations.CodeWordAfterEncodeAndSuccessfulDecode : Prop :=
  (∀ (d : Data) (s t : State), exec (.encode d) s = .next t → isCodeWord t.pw.data t.pw.ecc) ∧
  (∀ (s t : State) (st : SuccessStatus) (d : Data) (e : Ecc) (p : Bool), exec .decode s = .next t →
    t.rsp = .answer st d e p → isCodeWord t.pw.data t.pw.ecc) ∧
  (∃ (d : Data) (e : Ecc), ∀ s, ∃ t, exec (.load d e) s = .next t ∧ ¬ isCodeWord t.pw.data t.pw.ecc) ∧
  (∀ s t : State, exec .decode s = .next t → t.rsp = .failure .uncorrectable ∨ t.rsp = .failure (.invariant .table) →
    t.pw = s.pw ∧ ¬ isCodeWord t.pw.data t.pw.ecc)

/-! ## The guarantees of the code, by the number of flipped bits -/

/-- R121: an encoded word decodes CLEAN with its own data, whatever the data, and is not modified. -/
def Obligations.UnflippedWordDecodesClean : Prop :=
  (∀ (d : Data) (s : State), ∃ t, exec (.encode d) s = .next t ∧
    exec .decode t = .next { t with rsp := .answer .clean d (computeECC d) false }) ∧
  (∀ s : State, s.pw.valid = true → isCodeWord s.pw.data s.pw.ecc →
    exec .decode s = .next { s with rsp := .answer .clean s.pw.data s.pw.ecc false })

/-- R122: any one flipped bit of a code word is corrected, in either field, and the whole word is restored. -/
def Obligations.OneFlippedBitIsCorrected : Prop :=
  ∀ (s : State) (d : Data) (e : Ecc), isCodeWord d e →
    (∀ b : Fin 64,
      hammingSyndrome (d ^^^ (1#64 <<< b.val)) e = pos b ∧ parityError (d ^^^ (1#64 <<< b.val)) e = true ∧
      (∀ k : Fin 7, (pos b).toNat ≠ 2 ^ k.val) ∧ positionToDataBit (pos b) = some b ∧
      exec .decode { s with pw := ⟨true, d ^^^ (1#64 <<< b.val), e⟩ } =
        .next { s with pw := ⟨true, d, e⟩, rsp := .answer .correctedData d e false }) ∧
    (∀ k : Fin 7, (hammingSyndrome d (e ^^^ (1#8 <<< k.val))).toNat = 2 ^ k.val) ∧
    hammingSyndrome d (e ^^^ 0x80) = 0 ∧
    (∀ k : Fin 8, parityError d (e ^^^ (1#8 <<< k.val)) = true ∧
      exec .decode { s with pw := ⟨true, d, e ^^^ (1#8 <<< k.val)⟩ } =
        .next { s with pw := ⟨true, d, e⟩, rsp := .answer .correctedEcc d e false })

/-- Marked as derived in the spec (R123): any two distinct flipped bits of a code word, in either field or one in each, give no parity error and the XOR of
their positions, which is not 0, as the Hamming syndrome; so they are detected: `UNCORRECTABLE`, and the word keeps its
corrupted value. -/
def Obligations.TwoFlippedBitsAreDetected : Prop :=
  ∀ (s : State) (d : Data) (e : Ecc) (p q : Fin 72), isCodeWord d e → p ≠ q →
    parityError (d ^^^ flipDataPattern p ^^^ flipDataPattern q) (e ^^^ flipEccPattern p ^^^ flipEccPattern q) = false ∧
    hammingSyndrome (d ^^^ flipDataPattern p ^^^ flipDataPattern q) (e ^^^ flipEccPattern p ^^^ flipEccPattern q) =
      BitVec.ofNat 7 p.val ^^^ BitVec.ofNat 7 q.val ∧
    BitVec.ofNat 7 p.val ^^^ BitVec.ofNat 7 q.val ≠ 0 ∧
    exec .decode { s with pw := ⟨true, d ^^^ flipDataPattern p ^^^ flipDataPattern q,
                                  e ^^^ flipEccPattern p ^^^ flipEccPattern q⟩ } =
      .next { s with
        pw := ⟨true, d ^^^ flipDataPattern p ^^^ flipDataPattern q, e ^^^ flipEccPattern p ^^^ flipEccPattern q⟩
        rsp := .failure .uncorrectable }

/-- R124: the inherent limit, preserved. An odd number of flips is never CLEAN and never `UNCORRECTABLE`; an even number is
CLEAN when the flipped positions XOR to 0 and `UNCORRECTABLE` otherwise; and when three distinct flips are "corrected" the
data answered is wrong. -/
def Obligations.MoreFlipsAreMiscategorisedAsTheRulesSay : Prop :=
  (∀ (d : Data) (e : Ecc) (ps : List (Fin 72)), isCodeWord d e →
    (ps.length % 2 = 1 →
      (hammingEccDecoder (d ^^^ flipsData ps) (e ^^^ flipsEcc ps)).status ≠ .success .clean ∧
      (hammingEccDecoder (d ^^^ flipsData ps) (e ^^^ flipsEcc ps)).status ≠ .error .uncorrectable) ∧
    (ps.length % 2 = 0 →
      (hammingEccDecoder (d ^^^ flipsData ps) (e ^^^ flipsEcc ps)).status =
        if xorPositions ps = 0 then .success .clean else .error .uncorrectable)) ∧
  (∀ (d : Data) (e : Ecc) (p q r : Fin 72), isCodeWord d e → p ≠ q → p ≠ r → q ≠ r →
    (hammingEccDecoder (d ^^^ flipsData [p, q, r]) (e ^^^ flipsEcc [p, q, r])).rewrite = true →
    (hammingEccDecoder (d ^^^ flipsData [p, q, r]) (e ^^^ flipsEcc [p, q, r])).data ≠ d)

/-- Marked as derived in the spec (R126): after a successful DECODE the word is a code word, and an immediately following DECODE is CLEAN with the same data
and writes nothing; after an error the word is unchanged, and a following DECODE gives the same error again. -/
def Obligations.SecondDecodeChangesNothing : Prop :=
  ∀ s t : State, exec .decode s = .next t →
    (∀ st d e p, t.rsp = .answer st d e p →
      isCodeWord t.pw.data t.pw.ecc ∧ exec .decode t = .next { t with rsp := .answer .clean d e false }) ∧
    (∀ k, t.rsp = .failure k → t.pw = s.pw ∧ exec .decode t = .next t)

/-- Marked as derived in the spec (R127): the outcome depends only on the pair (Hamming syndrome, parity error); for each data value each of the 256 pairs
occurs for exactly one `ecc`; and of the 256 pairs 1 is CLEAN, 64 CORRECTED_DATA, 8 CORRECTED_ECC, 56 INVARIANT_TABLE and 127
UNCORRECTABLE. -/
def Obligations.OutcomeClassesHaveTheirSizes : Prop :=
  (∀ (d : Data) (h : HamSyn) (p : Bool), ∃ e : Ecc, (hammingSyndrome d e = h ∧ parityError d e = p) ∧
    ∀ e' : Ecc, hammingSyndrome d e' = h → parityError d e' = p → e' = e) ∧
  (∃ f : HamSyn → Bool → Status,
    (∀ (d : Data) (e : Ecc), (hammingEccDecoder d e).status = f (hammingSyndrome d e) (parityError d e)) ∧
    ∀ st : Status, ((List.finRange 128).countP fun h => f (BitVec.ofFin h) false == st) +
        ((List.finRange 128).countP fun h => f (BitVec.ofFin h) true == st) =
      match st with
      | .success .clean => 1
      | .success .correctedData => 64
      | .success .correctedEcc => 8
      | .error .uncorrectable => 127
      | .error (.invariant .table) => 56
      | .error (.invariant .noWord) => 0
      | .error (.invariant .illegalOp) => 0)

/-! ## The machine as a whole -/

/-- R15, R28, R149: what a command does to the word and what it answers depend on the command and the word alone: not on any
earlier response or error, on the moves to come or on the model's counter. -/
def Obligations.NothingButTheWordIsRemembered : Prop :=
  ∀ (i : Instr) (s s' : State), s.pw = s'.pw →
    ∃ t t', exec i s = .next t ∧ exec i s' = .next t' ∧ t.pw = t'.pw ∧ t.rsp = t'.rsp

/-- R76, R166: every step answers a next state, and leaves a response that is true of the word held; and when the move is an
ENCODE, a DECODE or a LOAD, an answer is the word held itself, with `rsp_perr_o` 0. (That a step takes its move from a queue,
and acts as IDLE when the queue is empty, is the model's: logs 1 and 2.) -/
def Obligations.EveryStepLeavesATrueResponse : Prop :=
  ∀ s : State, ∃ t, step s = .next t ∧ ResponseTrueOfWord t ∧
    ∀ (c : Command) (rest : List HostMove), s.host = .command c :: rest → c.op = 1 ∨ c.op = 2 ∨ c.op = 4 →
      ∀ st d e p, t.rsp = .answer st d e p → t.pw = ⟨true, d, e⟩ ∧ p = false

/-- D23, R131: while the host issues no LOAD, every step keeps the register holding a code word whenever it holds a word; and
in such a state no DECODE finds an error. -/
def Obligations.WithoutLoadTheRegisterHoldsACodeWord : Prop :=
  (∀ s t : State, HoldsCodeWord s ∧ NoLoadPending s → step s = .next t → HoldsCodeWord t ∧ NoLoadPending t) ∧
  (∀ s : State, HoldsCodeWord s → s.pw.valid = true →
    exec .decode s = .next { s with rsp := .answer .clean s.pw.data s.pw.ecc false })

/-- The invariants hold at `State.reset`. -/
def Obligations.ResetStateIsSafe : Prop :=
  HoldsCodeWord State.reset ∧ NoLoadPending State.reset ∧ ResponseTrueOfWord State.reset

/-- R48: the state after a sequence of moves is the fold of the step function over the sequence, whatever moves wait behind
it. -/
def Obligations.RunIsTheFoldOfTheMoves : Prop :=
  ∀ (ms : List HostMove) (s : State), ∃ t, applyMoves ms s = .next t ∧
    ∀ rest : List HostMove,
      Host.Core.run core ms.length { s with host := ms ++ rest } = .next { t with host := rest }

/-- R34, R154: distinct instances are independent: a step of one leaves the other alone, and two steps of distinct instances
may be taken in either order. (That a system is a list, that one move reaches one instance, and that an index without an
instance changes nothing, is the model's choice: DESIGN CHOICE, log 13.) -/
def Obligations.InstancesAreIndependent : Prop :=
  ∀ (sys : System) (i j : Nat), i ≠ j →
    (stepInstance i sys)[j]? = sys[j]? ∧ stepInstance i (stepInstance j sys) = stepInstance j (stepInstance i sys)
end

