-- ==== Sys2Proof/Laws/Bits.lean ====
section
/-!
SUPPORT. Laws of counting set bits and of parity (R9, R11): the facts every property of the code rests on.
-/

namespace Sys2Proof.Laws

open Sys2Proof.Machine

theorem popcountBelow_le {w : Nat} (v : BitVec w) (n : Nat) : popcountBelow v n ≤ n := by
  induction n with
  | zero => simp [popcountBelow]
  | succ n ih => cases h : v.getLsbD n <;> simp [popcountBelow, h] <;> omega

theorem popcount_le {w : Nat} (v : BitVec w) : popcount v ≤ w := popcountBelow_le v w

theorem popcountBelow_eq_zero {w : Nat} (v : BitVec w) (n : Nat) :
    popcountBelow v n = 0 ↔ ∀ i < n, v.getLsbD i = false := by
  induction n with
  | zero => simp [popcountBelow]
  | succ n ih =>
    simp only [popcountBelow, Nat.add_eq_zero_iff, ih, Bool.toNat_eq_zero]
    constructor
    · rintro ⟨h, hn⟩ i hi
      rcases Nat.lt_succ_iff_lt_or_eq.mp hi with h' | rfl
      · exact h i h'
      · exact hn
    · exact fun h => ⟨fun i hi => h i (by omega), h n (by omega)⟩

theorem popcount_eq_zero {w : Nat} (v : BitVec w) : popcount v = 0 ↔ v = 0#w := by
  rw [popcount, popcountBelow_eq_zero]
  constructor
  · intro h
    apply BitVec.eq_of_getLsbD_eq
    intro i hi
    simp [h i hi]
  · rintro rfl i _
    simp

/-- Counting twice the common bits, the counts of two words add up to that of their XOR. -/
theorem popcountBelow_xor {w : Nat} (a b : BitVec w) (n : Nat) :
    popcountBelow (a ^^^ b) n + 2 * popcountBelow (a &&& b) n = popcountBelow a n + popcountBelow b n := by
  induction n with
  | zero => simp [popcountBelow]
  | succ n ih =>
    simp only [popcountBelow, BitVec.getLsbD_xor, BitVec.getLsbD_and]
    cases a.getLsbD n <;> cases b.getLsbD n <;> simp <;> omega

theorem popcount_xor {w : Nat} (a b : BitVec w) :
    popcount (a ^^^ b) + 2 * popcount (a &&& b) = popcount a + popcount b := popcountBelow_xor a b w

@[simp] theorem parity_zero {w : Nat} : parity (0#w) = false := by
  simp [parity, (popcount_eq_zero (0#w)).mpr rfl]

/-- Parity is linear (R11). -/
theorem parity_xor {w : Nat} (a b : BitVec w) : parity (a ^^^ b) = (parity a ^^ parity b) := by
  have h := popcount_xor a b
  simp only [parity]
  rcases Nat.mod_two_eq_zero_or_one (popcount a) with ha | ha <;>
    rcases Nat.mod_two_eq_zero_or_one (popcount b) with hb | hb <;>
    simp only [ha, hb] <;> simp <;> omega

/-- A sum of two counts is odd when the parities of its terms differ (R11). -/
theorem odd_sum {v w : Nat} (a : BitVec v) (b : BitVec w) :
    ((popcount a + popcount b) % 2 == 1) = (parity a ^^ parity b) := by
  simp only [parity]
  rcases Nat.mod_two_eq_zero_or_one (popcount a) with ha | ha <;>
    rcases Nat.mod_two_eq_zero_or_one (popcount b) with hb | hb <;>
    simp [Nat.add_mod, ha, hb]

theorem popcountBelow_append_low {v w : Nat} (a : BitVec v) (b : BitVec w) (n : Nat) (h : n ≤ w) :
    popcountBelow (a ++ b) n = popcountBelow b n := by
  induction n with
  | zero => rfl
  | succ n ih =>
    have hn : n < w := by omega
    simp [popcountBelow, ih (by omega), BitVec.getLsbD_append, hn]

theorem popcountBelow_append_high {v w : Nat} (a : BitVec v) (b : BitVec w) (n : Nat) :
    popcountBelow (a ++ b) (n + w) = popcountBelow a n + popcount b := by
  induction n with
  | zero => simp [popcountBelow, popcountBelow_append_low, popcount]
  | succ n ih =>
    rw [show n + 1 + w = (n + w) + 1 by omega]
    simp [popcountBelow, ih, BitVec.getLsbD_append]
    omega

theorem popcount_append {v w : Nat} (a : BitVec v) (b : BitVec w) :
    popcount (a ++ b) = popcount a + popcount b := popcountBelow_append_high a b v

theorem popcount_ofBool (b : Bool) : popcount (BitVec.ofBool b) = b.toNat := by
  cases b <;> decide

/-! ## The bits of `computeECC` -/

/-- Bit `k` of seven bits joined as `hammingBits` joins them. -/
theorem getLsbD_sevenBits (f : Fin 7 → Bool) (k : Fin 7) :
    (BitVec.ofBool (f 6) ++ BitVec.ofBool (f 5) ++ BitVec.ofBool (f 4) ++ BitVec.ofBool (f 3) ++
      BitVec.ofBool (f 2) ++ BitVec.ofBool (f 1) ++ BitVec.ofBool (f 0)).getLsbD k.val = f k := by
  fin_cases k <;> repeat (first | rw [BitVec.getLsbD_append] | simp)

theorem getLsbD_hammingBits (d : Data) (k : Fin 7) : (hammingBits d).getLsbD k.val = hammingBit d k :=
  getLsbD_sevenBits (hammingBit d) k

theorem getLsbD_computeECC_low (d : Data) (k : Fin 7) : (computeECC d).getLsbD k.val = hammingBit d k := by
  have h : (BitVec.ofBool (overallBit d) ++ hammingBits d).getLsbD k.val = hammingBit d k := by
    rw [BitVec.getLsbD_append, getLsbD_hammingBits]
    simp
  exact h

theorem getLsbD_computeECC_seven (d : Data) : (computeECC d).getLsbD 7 = overallBit d := by
  have h : (BitVec.ofBool (overallBit d) ++ hammingBits d).getLsbD 7 = overallBit d := by
    rw [BitVec.getLsbD_append]
    simp
  exact h

/-- The low seven bits of `computeECC` are the Hamming bits (R90). -/
theorem computeECC_low (d : Data) : (computeECC d).extractLsb' 0 7 = hammingBits d := by
  apply BitVec.eq_of_getLsbD_eq
  intro i hi
  have := getLsbD_computeECC_low d ⟨i, hi⟩
  have := getLsbD_hammingBits d ⟨i, hi⟩
  simp_all

theorem hammingBit_xor (a b : Data) (k : Fin 7) :
    hammingBit (a ^^^ b) k = (hammingBit a k ^^ hammingBit b k) := by
  have h : (a ^^^ b) &&& coverageMask k = (a &&& coverageMask k) ^^^ (b &&& coverageMask k) := by
    apply BitVec.eq_of_getLsbD_eq
    intro i _
    simp [Bool.and_xor_distrib_right]
  simp [hammingBit, h, parity_xor]

theorem hammingBits_xor (a b : Data) : hammingBits (a ^^^ b) = hammingBits a ^^^ hammingBits b := by
  apply BitVec.eq_of_getLsbD_eq
  intro i hi
  have := getLsbD_hammingBits (a ^^^ b) ⟨i, hi⟩
  have := getLsbD_hammingBits a ⟨i, hi⟩
  have := getLsbD_hammingBits b ⟨i, hi⟩
  simp_all [hammingBit_xor]

theorem overallBit_eq (d : Data) : overallBit d = (parity d ^^ parity (hammingBits d)) := odd_sum d (hammingBits d)

/-- The 72 bits of a code word have even parity (R90, property of the result). -/
theorem parity_computeECC (d : Data) : parity (computeECC d) = parity d := by
  have h : parity (computeECC d) = (overallBit d ^^ parity (hammingBits d)) := by
    have := odd_sum (BitVec.ofBool (overallBit d)) (hammingBits d)
    rw [← popcount_append] at this
    rw [show parity (computeECC d) = (popcount (computeECC d) % 2 == 1) from rfl]
    rw [show computeECC d = BitVec.ofBool (overallBit d) ++ hammingBits d from rfl, this]
    congr 1
    cases overallBit d <;> decide
  rw [h, overallBit_eq]
  cases parity d <;> cases parity (hammingBits d) <;> rfl

end Sys2Proof.Laws
end

