-- ==== Sys2Proof/Laws/State.lean ====
section
/-!
SUPPORT. One lemma per field per update of the state, true by `rfl`, so that no later proof unfolds a record update.
-/

namespace Sys2Proof.Laws

open Sys2Proof.Machine

@[simp] theorem writeData_valid (v : Data) (s : State) :
    (writeData v s).pw.valid = s.pw.valid := rfl

@[simp] theorem writeData_data (v : Data) (s : State) :
    (writeData v s).pw.data = v := rfl

@[simp] theorem writeData_ecc (v : Data) (s : State) :
    (writeData v s).pw.ecc = s.pw.ecc := rfl

@[simp] theorem writeData_rsp (v : Data) (s : State) :
    (writeData v s).rsp = s.rsp := rfl

@[simp] theorem writeData_host (v : Data) (s : State) :
    (writeData v s).host = s.host := rfl

@[simp] theorem writeData_resets (v : Data) (s : State) :
    (writeData v s).resets = s.resets := rfl

@[simp] theorem writeEcc_valid (v : Ecc) (s : State) :
    (writeEcc v s).pw.valid = s.pw.valid := rfl

@[simp] theorem writeEcc_data (v : Ecc) (s : State) :
    (writeEcc v s).pw.data = s.pw.data := rfl

@[simp] theorem writeEcc_ecc (v : Ecc) (s : State) :
    (writeEcc v s).pw.ecc = v := rfl

@[simp] theorem writeEcc_rsp (v : Ecc) (s : State) :
    (writeEcc v s).rsp = s.rsp := rfl

@[simp] theorem writeEcc_host (v : Ecc) (s : State) :
    (writeEcc v s).host = s.host := rfl

@[simp] theorem writeEcc_resets (v : Ecc) (s : State) :
    (writeEcc v s).resets = s.resets := rfl

@[simp] theorem setValid_valid (s : State) :
    (setValid s).pw.valid = true := rfl

@[simp] theorem setValid_data (s : State) :
    (setValid s).pw.data = s.pw.data := rfl

@[simp] theorem setValid_ecc (s : State) :
    (setValid s).pw.ecc = s.pw.ecc := rfl

@[simp] theorem setValid_rsp (s : State) :
    (setValid s).rsp = s.rsp := rfl

@[simp] theorem setValid_host (s : State) :
    (setValid s).host = s.host := rfl

@[simp] theorem setValid_resets (s : State) :
    (setValid s).resets = s.resets := rfl

@[simp] theorem writeWord_valid (d : Data) (e : Ecc) (s : State) :
    (writeWord d e s).pw.valid = true := rfl

@[simp] theorem writeWord_data (d : Data) (e : Ecc) (s : State) :
    (writeWord d e s).pw.data = d := rfl

@[simp] theorem writeWord_ecc (d : Data) (e : Ecc) (s : State) :
    (writeWord d e s).pw.ecc = e := rfl

@[simp] theorem writeWord_rsp (d : Data) (e : Ecc) (s : State) :
    (writeWord d e s).rsp = s.rsp := rfl

@[simp] theorem writeWord_host (d : Data) (e : Ecc) (s : State) :
    (writeWord d e s).host = s.host := rfl

@[simp] theorem writeWord_resets (d : Data) (e : Ecc) (s : State) :
    (writeWord d e s).resets = s.resets := rfl

@[simp] theorem respond_valid (st : SuccessStatus) (d : Data) (e : Ecc) (p : Bool) (s : State) :
    (respond st d e p s).pw.valid = s.pw.valid := rfl

@[simp] theorem respond_data (st : SuccessStatus) (d : Data) (e : Ecc) (p : Bool) (s : State) :
    (respond st d e p s).pw.data = s.pw.data := rfl

@[simp] theorem respond_ecc (st : SuccessStatus) (d : Data) (e : Ecc) (p : Bool) (s : State) :
    (respond st d e p s).pw.ecc = s.pw.ecc := rfl

@[simp] theorem respond_rsp (st : SuccessStatus) (d : Data) (e : Ecc) (p : Bool) (s : State) :
    (respond st d e p s).rsp = .answer st d e p := rfl

@[simp] theorem respond_host (st : SuccessStatus) (d : Data) (e : Ecc) (p : Bool) (s : State) :
    (respond st d e p s).host = s.host := rfl

@[simp] theorem respond_resets (st : SuccessStatus) (d : Data) (e : Ecc) (p : Bool) (s : State) :
    (respond st d e p s).resets = s.resets := rfl

@[simp] theorem noResponse_valid (s : State) :
    (noResponse s).pw.valid = s.pw.valid := rfl

@[simp] theorem noResponse_data (s : State) :
    (noResponse s).pw.data = s.pw.data := rfl

@[simp] theorem noResponse_ecc (s : State) :
    (noResponse s).pw.ecc = s.pw.ecc := rfl

@[simp] theorem noResponse_rsp (s : State) :
    (noResponse s).rsp = .noResponse := rfl

@[simp] theorem noResponse_host (s : State) :
    (noResponse s).host = s.host := rfl

@[simp] theorem noResponse_resets (s : State) :
    (noResponse s).resets = s.resets := rfl

@[simp] theorem takeReset_valid (s : State) :
    (takeReset s).pw.valid = false := rfl

@[simp] theorem takeReset_data (s : State) :
    (takeReset s).pw.data = Config.resetData s.resets := rfl

@[simp] theorem takeReset_ecc (s : State) :
    (takeReset s).pw.ecc = Config.resetEcc s.resets := rfl

@[simp] theorem takeReset_rsp (s : State) :
    (takeReset s).rsp = .noResponse := rfl

@[simp] theorem takeReset_host (s : State) :
    (takeReset s).host = s.host := rfl

@[simp] theorem takeReset_resets (s : State) :
    (takeReset s).resets = s.resets + 1 := rfl

@[simp] theorem issueWord_valid (nbits w : Nat) (s : State) :
    (issueWord nbits w s).pw.valid = s.pw.valid := rfl

@[simp] theorem issueWord_data (nbits w : Nat) (s : State) :
    (issueWord nbits w s).pw.data = s.pw.data := rfl

@[simp] theorem issueWord_ecc (nbits w : Nat) (s : State) :
    (issueWord nbits w s).pw.ecc = s.pw.ecc := rfl

@[simp] theorem issueWord_rsp (nbits w : Nat) (s : State) :
    (issueWord nbits w s).rsp = s.rsp := rfl

@[simp] theorem issueWord_host (nbits w : Nat) (s : State) :
    (issueWord nbits w s).host = .command (commandOfWord (BitVec.ofNat 75 (w % 2 ^ nbits))) :: s.host := rfl

@[simp] theorem issueWord_resets (nbits w : Nat) (s : State) :
    (issueWord nbits w s).resets = s.resets := rfl

/-- A register with its valid bit set is its three fields. -/
theorem pw_of_valid (p : PWRegister) (h : p.valid = true) : p = ⟨true, p.data, p.ecc⟩ := by
  obtain ⟨v, d, e⟩ := p
  simp_all

end Sys2Proof.Laws
end

