-- ==== Sys2Proof/Laws/Ops.lean ====
section
/-!
SUPPORT. One spec lemma for each shared operation: how a step ends, the guard of DECODE and SYNDROME, the end of a DECODE,
taking the host's next move. Proofs cite these and never unfold the operations.
-/

namespace Sys2Proof.Laws

open Sys2Proof.Machine

theorem raiseError_eq (k : ErrorKind) (s : State) : raiseError k s = .next { s with rsp := .failure k } := rfl

theorem withWord_valid (f : State → Result) (s : State) (h : s.pw.valid = true) : withWord f s = f s := by
  simp [withWord, h]

theorem withWord_invalid (f : State → Result) (s : State) (h : s.pw.valid = false) :
    withWord f s = .next { s with rsp := .failure (.invariant .noWord) } := by
  simp [withWord, h, raiseError]

/-- All that the guard can answer with a next state. -/
theorem withWord_next {f : State → Result} {s t : State} (h : withWord f s = .next t) :
    (s.pw.valid = true ∧ f s = .next t) ∨
    (s.pw.valid = false ∧ t = { s with rsp := .failure (.invariant .noWord) }) := by
  cases hv : s.pw.valid
  · rw [withWord_invalid f s hv] at h
    exact .inr ⟨rfl, by cases h; rfl⟩
  · rw [withWord_valid f s hv] at h
    exact .inl ⟨rfl, h⟩

/-! ## The end of a DECODE -/

theorem finishDecode_keep_success (st : SuccessStatus) (d : Data) (e : Ecc) (s : State) :
    finishDecode (keepWord (.success st) d e) s = .next { s with rsp := .answer st d e false } := rfl

theorem finishDecode_keep_error (k : ErrorKind) (d : Data) (e : Ecc) (s : State) :
    finishDecode (keepWord (.error k) d e) s = .next { s with rsp := .failure k } := rfl

theorem finishDecode_rewrite (st : SuccessStatus) (d : Data) (s : State) :
    finishDecode (rewriteWord st d) s =
      .next { s with pw := ⟨s.pw.valid, d, computeECC d⟩, rsp := .answer st d (computeECC d) false } := rfl

/-! ## Steps -/

theorem nextMove_nil {s : State} (h : s.host = []) : nextMove s = (.command idleCommand, s) := by
  simp [nextMove, h]

theorem nextMove_cons {s : State} {m : HostMove} {rest : List HostMove} (h : s.host = m :: rest) :
    nextMove s = (m, { s with host := rest }) := by
  simp [nextMove, h]

/-- A run of one step more, through its first step. -/
theorem run_succ (M : Host.Core) (k : Nat) (s t : M.State) (h : M.step s = .next t) : M.run (k + 1) s = M.run k t := by
  simp only [Host.Core.run, h]

end Sys2Proof.Laws
end

