-- ==== Sys2Proof/Laws/Table.lean ====
section
/-!
SUPPORT. Finite facts of the Coverage Table that the properties of the decoder rest on, each checked over all 128 values of a
Hamming syndrome or all 64 data bits.
-/

namespace Sys2Proof.Laws

open Sys2Proof.Machine

theorem isPow2_ne_zero : ∀ p : HamSyn, isPow2 p = true → p ≠ 0 := by decide +kernel

/-- The power-of-two test as a list of the seven parity slots. -/
theorem isPow2_iff_slot : ∀ p : HamSyn, isPow2 p = true ↔ ∃ k : Fin 7, p.toNat = 2 ^ k.val := by decide +kernel

theorem hosted_not_slot :
    ∀ (p : HamSyn) (b : Fin 64), positionToDataBit p = some b → p ≠ 0 ∧ isPow2 p = false := by decide +kernel

theorem lookup_none_iff_high :
    ∀ p : HamSyn, p ≠ 0 → isPow2 p = false → (positionToDataBit p = none ↔ 72 ≤ p.toNat) := by decide +kernel

theorem high_not_hosted :
    ∀ p : HamSyn, 72 ≤ p.toNat → p ≠ 0 ∧ isPow2 p = false ∧ positionToDataBit p = none := by decide +kernel

/-- The participation pattern of a data bit is its position: the masks and the positions are two views of one rule. -/
theorem hammingBits_single : ∀ b : Fin 64, hammingBits (dataBitMask b) = pos b := by decide +kernel

end Sys2Proof.Laws
end

