-- ==== Sys2Proof/Laws/Decoder.lean ====
section
/-!
SUPPORT. The syndrome values by their parts, and all that the decoder can answer (one inversion for the whole block).
-/

namespace Sys2Proof.Laws

open Sys2Proof.Machine

/-- The Hamming syndrome by its parts: the low check bits XOR the Hamming bits of the data (R101). -/
theorem hammingSyndrome_eq (d : Data) (e : Ecc) : hammingSyndrome d e = e.extractLsb' 0 7 ^^^ hammingBits d := by
  rw [← computeECC_low]
  apply BitVec.eq_of_getLsbD_eq
  intro i hi
  simp [hammingSyndrome, syndromeOf, hammingEccEncoder, hi]

/-- Check bits are equal when their low seven bits and their bit 7 are. -/
theorem ecc_ext (a b : Ecc) (h : a.extractLsb' 0 7 = b.extractLsb' 0 7) (h7 : a.getLsbD 7 = b.getLsbD 7) : a = b := by
  apply BitVec.eq_of_getLsbD_eq
  intro i hi
  rcases Nat.lt_or_ge i 7 with h' | h'
  · have := congrArg (fun v => v.getLsbD i) h
    simpa [h'] using this
  · obtain rfl : i = 7 := by omega
    exact h7

theorem low_xor (a b : Ecc) : (a ^^^ b).extractLsb' 0 7 = a.extractLsb' 0 7 ^^^ b.extractLsb' 0 7 := by
  apply BitVec.eq_of_getLsbD_eq
  intro i hi
  simp [hi]

/-- The classification with its four cases as two tests: the cases are exclusive and exhaustive (R111). -/
theorem classify_eq (h : HamSyn) (p : Bool) (d : Data) (e : Ecc) : classify h p d e =
    if h = 0 then (if p then rewriteWord .correctedEcc d else keepWord (.success .clean) d e)
    else if p then correctAt h d e else keepWord (.error .uncorrectable) d e := by
  by_cases h0 : h = 0#7 <;> cases p <;> simp [classify, h0]

/-- The decoder is the classification of the syndrome of its input. -/
theorem decoder_eq (d : Data) (e : Ecc) :
    hammingEccDecoder d e = classify (hammingSyndrome d e) (parityError d e) d e := rfl

/-- All that the decoder can answer for a word, each with the condition under which it does. -/
inductive DecoderCase (d : Data) (e : Ecc) : DecoderOut → Prop where
  | clean (h : hammingSyndrome d e = 0) (p : parityError d e = false) :
      DecoderCase d e (keepWord (.success .clean) d e)
  | slot (h : isPow2 (hammingSyndrome d e) = true) (p : parityError d e = true) :
      DecoderCase d e (rewriteWord .correctedEcc d)
  | dataBit (b : Fin 64) (h : positionToDataBit (hammingSyndrome d e) = some b) (p : parityError d e = true) :
      DecoderCase d e (rewriteWord .correctedData (flipDataBit d b))
  | beyond (h : 72 ≤ (hammingSyndrome d e).toNat) (p : parityError d e = true) :
      DecoderCase d e (keepWord (.error (.invariant .table)) d e)
  | overall (h : hammingSyndrome d e = 0) (p : parityError d e = true) :
      DecoderCase d e (rewriteWord .correctedEcc d)
  | even (h : hammingSyndrome d e ≠ 0) (p : parityError d e = false) :
      DecoderCase d e (keepWord (.error .uncorrectable) d e)

theorem decoder_cases (d : Data) (e : Ecc) : DecoderCase d e (hammingEccDecoder d e) := by
  rw [decoder_eq, classify_eq]
  by_cases h : hammingSyndrome d e = 0 <;> by_cases p : parityError d e = true <;> simp only [h, p, if_true, if_false]
  · exact .overall h p
  · exact .clean h (by simpa using p)
  · unfold correctAt
    split
    · exact .slot ‹_› p
    · rename_i hs
      split
      · exact .beyond ((lookup_none_iff_high _ h (by simpa using hs)).mp ‹_›) p
      · exact .dataBit _ ‹_› p
  · exact .even h (by simpa using p)

/-! ## The decoder from its condition -/

theorem decoder_clean {d : Data} {e : Ecc} (h : hammingSyndrome d e = 0) (p : parityError d e = false) :
    hammingEccDecoder d e = keepWord (.success .clean) d e := by
  rw [decoder_eq, classify_eq, if_pos h, p]; rfl

theorem decoder_overall {d : Data} {e : Ecc} (h : hammingSyndrome d e = 0) (p : parityError d e = true) :
    hammingEccDecoder d e = rewriteWord .correctedEcc d := by
  rw [decoder_eq, classify_eq, if_pos h, if_pos p]

theorem decoder_slot {d : Data} {e : Ecc} (h : isPow2 (hammingSyndrome d e) = true) (p : parityError d e = true) :
    hammingEccDecoder d e = rewriteWord .correctedEcc d := by
  rw [decoder_eq, classify_eq, if_neg (isPow2_ne_zero _ h), if_pos p, correctAt, if_pos h]

theorem decoder_dataBit {d : Data} {e : Ecc} {b : Fin 64} (h : positionToDataBit (hammingSyndrome d e) = some b)
    (p : parityError d e = true) : hammingEccDecoder d e = rewriteWord .correctedData (flipDataBit d b) := by
  rw [decoder_eq, classify_eq, if_neg (hosted_not_slot _ _ h).1, if_pos p, correctAt, (hosted_not_slot _ _ h).2, h]; rfl

theorem decoder_beyond {d : Data} {e : Ecc} (h : 72 ≤ (hammingSyndrome d e).toNat) (p : parityError d e = true) :
    hammingEccDecoder d e = keepWord (.error (.invariant .table)) d e := by
  rw [decoder_eq, classify_eq, if_neg (high_not_hosted _ h).1, if_pos p, correctAt, (high_not_hosted _ h).2.1,
    (high_not_hosted _ h).2.2]; rfl

theorem decoder_even {d : Data} {e : Ecc} (h : hammingSyndrome d e ≠ 0) (p : parityError d e = false) :
    hammingEccDecoder d e = keepWord (.error .uncorrectable) d e := by
  rw [decoder_eq, classify_eq, if_neg h, p]; rfl

end Sys2Proof.Laws
end

