-- ==== Sys2Proof/Laws/Exec.lean ====
section
/-!
SUPPORT. All that an operation can do to a state (one inversion for `exec`); every property of all operations is a case
analysis over it.
-/

namespace Sys2Proof.Laws

open Sys2Proof.Machine

theorem exec_decode_valid (s : State) (h : s.pw.valid = true) :
    exec .decode s = finishDecode (hammingEccDecoder s.pw.data s.pw.ecc) s := withWord_valid _ s h

theorem exec_syndrome_valid (s : State) (h : s.pw.valid = true) : exec .syndrome s =
    .next { s with rsp := .answer .clean ((computeECC s.pw.data).setWidth 64) (syndromeOf s.pw.data s.pw.ecc)
                            (parityError s.pw.data s.pw.ecc) } := by
  show execSyndrome s = _
  simp [execSyndrome, withWord, h]
  rfl

/-- Without a word DECODE and SYNDROME end alike, before anything is computed (R143). -/
theorem exec_decode_invalid (s : State) (h : s.pw.valid = false) :
    exec .decode s = .next { s with rsp := .failure (.invariant .noWord) } := by
  show execDecode s = _
  simp [execDecode, withWord, h, raiseError]

theorem exec_syndrome_invalid (s : State) (h : s.pw.valid = false) :
    exec .syndrome s = .next { s with rsp := .failure (.invariant .noWord) } := by
  show execSyndrome s = _
  simp [execSyndrome, withWord, h, raiseError]

/-- All that an operation can do: the instruction, the state it leaves, and the condition under which it does. -/
inductive ExecCase (s : State) : Instr → State → Prop where
  | idle : ExecCase s .idle { s with rsp := .noResponse }
  | encode (d : Data) : ExecCase s (.encode d)
      { s with pw := ⟨true, d, computeECC d⟩, rsp := .answer .clean d (computeECC d) false }
  | load (d : Data) (e : Ecc) : ExecCase s (.load d e) { s with pw := ⟨true, d, e⟩, rsp := .answer .clean d e false }
  | syndrome (v : s.pw.valid = true) : ExecCase s .syndrome
      { s with rsp := .answer .clean ((computeECC s.pw.data).setWidth 64) (syndromeOf s.pw.data s.pw.ecc)
                        (parityError s.pw.data s.pw.ecc) }
  | syndromeNoWord (v : s.pw.valid = false) : ExecCase s .syndrome { s with rsp := .failure (.invariant .noWord) }
  | decodeNoWord (v : s.pw.valid = false) : ExecCase s .decode { s with rsp := .failure (.invariant .noWord) }
  | decodeClean (v : s.pw.valid = true) (h : hammingSyndrome s.pw.data s.pw.ecc = 0)
      (p : parityError s.pw.data s.pw.ecc = false) :
      ExecCase s .decode { s with rsp := .answer .clean s.pw.data s.pw.ecc false }
  | decodeEcc (v : s.pw.valid = true)
      (h : hammingSyndrome s.pw.data s.pw.ecc = 0 ∨ isPow2 (hammingSyndrome s.pw.data s.pw.ecc) = true)
      (p : parityError s.pw.data s.pw.ecc = true) :
      ExecCase s .decode
        { s with pw := ⟨true, s.pw.data, computeECC s.pw.data⟩
                 rsp := .answer .correctedEcc s.pw.data (computeECC s.pw.data) false }
  | decodeData (b : Fin 64) (v : s.pw.valid = true)
      (h : positionToDataBit (hammingSyndrome s.pw.data s.pw.ecc) = some b)
      (p : parityError s.pw.data s.pw.ecc = true) :
      ExecCase s .decode
        { s with pw := ⟨true, flipDataBit s.pw.data b, computeECC (flipDataBit s.pw.data b)⟩
                 rsp := .answer .correctedData (flipDataBit s.pw.data b) (computeECC (flipDataBit s.pw.data b)) false }
  | decodeBeyond (v : s.pw.valid = true) (h : 72 ≤ (hammingSyndrome s.pw.data s.pw.ecc).toNat)
      (p : parityError s.pw.data s.pw.ecc = true) :
      ExecCase s .decode { s with rsp := .failure (.invariant .table) }
  | decodeEven (v : s.pw.valid = true) (h : hammingSyndrome s.pw.data s.pw.ecc ≠ 0)
      (p : parityError s.pw.data s.pw.ecc = false) :
      ExecCase s .decode { s with rsp := .failure .uncorrectable }
  | reserved5 : ExecCase s .reserved5 { s with rsp := .failure (.invariant .illegalOp) }
  | reserved6 : ExecCase s .reserved6 { s with rsp := .failure (.invariant .illegalOp) }
  | reserved7 : ExecCase s .reserved7 { s with rsp := .failure (.invariant .illegalOp) }

theorem exec_cases (i : Instr) (s : State) : ∃ t, exec i s = .next t ∧ ExecCase s i t := by
  cases i with
  | idle => exact ⟨_, rfl, .idle⟩
  | encode d => exact ⟨_, rfl, .encode d⟩
  | load d e => exact ⟨_, rfl, .load d e⟩
  | reserved5 => exact ⟨_, rfl, .reserved5⟩
  | reserved6 => exact ⟨_, rfl, .reserved6⟩
  | reserved7 => exact ⟨_, rfl, .reserved7⟩
  | syndrome =>
    cases v : s.pw.valid
    · exact ⟨_, exec_syndrome_invalid s v, .syndromeNoWord v⟩
    · exact ⟨_, exec_syndrome_valid s v, .syndrome v⟩
  | decode =>
    cases v : s.pw.valid
    · exact ⟨_, exec_decode_invalid s v, .decodeNoWord v⟩
    · rw [exec_decode_valid s v]
      have hc := decoder_cases s.pw.data s.pw.ecc
      generalize hammingEccDecoder s.pw.data s.pw.ecc = o at hc ⊢
      cases hc with
      | clean h p => exact ⟨_, finishDecode_keep_success _ _ _ _, .decodeClean v h p⟩
      | overall h p => exact ⟨_, by rw [finishDecode_rewrite, v], .decodeEcc v (.inl h) p⟩
      | slot h p => exact ⟨_, by rw [finishDecode_rewrite, v], .decodeEcc v (.inr h) p⟩
      | dataBit b h p => exact ⟨_, by rw [finishDecode_rewrite, v], .decodeData b v h p⟩
      | beyond h p => exact ⟨_, finishDecode_keep_error _ _ _ _, .decodeBeyond v h p⟩
      | even h p => exact ⟨_, finishDecode_keep_error _ _ _ _, .decodeEven v h p⟩

/-- The inversion: what an operation did, from the state it answered. -/
theorem exec_inv {i : Instr} {s t : State} (h : exec i s = .next t) : ExecCase s i t := by
  obtain ⟨t', h', hc⟩ := exec_cases i s
  rw [h'] at h
  cases h
  exact hc

end Sys2Proof.Laws
end

