-- ==== Sys2Proof/Laws/PerInstr.lean ====
section
/-!
SUPPORT. A property of every instruction as syntax, one lemma per constructor: its code is the one its ports carry, selects
its own row whatever is on the operand ports, and its operands are always legal (R73, R74).
-/

namespace Sys2Proof.Laws

/-- The ports of an instruction carry its code, its code selects an instruction of that code whatever is on the operand
ports, and every value of its operands is legal. -/
def CodeField.Statement (i : Instr) : Prop :=
  (encodeCommand i).op = i.opCode ∧
  (∀ (d : Data) (e : Ecc), (decodeCommand ⟨i.opCode, d, e⟩).opCode = i.opCode) ∧
  i.wellFormed = true

theorem CodeField.idle : CodeField.Statement .idle := ⟨rfl, fun _ _ => rfl, rfl⟩

theorem CodeField.encode (data : Data) : CodeField.Statement (.encode data) := ⟨rfl, fun _ _ => rfl, rfl⟩

theorem CodeField.decode : CodeField.Statement .decode := ⟨rfl, fun _ _ => rfl, rfl⟩

theorem CodeField.syndrome : CodeField.Statement .syndrome := ⟨rfl, fun _ _ => rfl, rfl⟩

theorem CodeField.load (data : Data) (ecc : Ecc) : CodeField.Statement (.load data ecc) := ⟨rfl, fun _ _ => rfl, rfl⟩

theorem CodeField.reserved5 : CodeField.Statement .reserved5 := ⟨rfl, fun _ _ => rfl, rfl⟩

theorem CodeField.reserved6 : CodeField.Statement .reserved6 := ⟨rfl, fun _ _ => rfl, rfl⟩

theorem CodeField.reserved7 : CodeField.Statement .reserved7 := ⟨rfl, fun _ _ => rfl, rfl⟩

end Sys2Proof.Laws
end

