-- ==== Sys2Proof/Tests/Slice0.lean ====
section
/-!
SUPPORT. Tests, and a witness for the hypotheses of every obligation that has some.

Every expected value is copied from the spec: V<n> is a row of section 2.3 of spec/95_test_vectors.md, "2.1", "2.2", "2.5" and
"P1" to "P4" are its other sections, R<n> is a rule. None was read off the model.
-/

namespace Sys2Proof.Tests

-- one theorem after another: many kernel evaluations at once need more threads than the checks allow
set_option Elab.async false

open Sys2Proof.Machine

/-! ## Helpers -/

/-- A state that holds a word, nothing else happening. -/
def wordState (d : Data) (e : Ecc) : State := ⟨⟨true, d, e⟩, .noResponse, [], 1⟩

/-- A state that holds no word, with contents left over. -/
def emptyState (d : Data) (e : Ecc) : State := ⟨⟨false, d, e⟩, .noResponse, [], 1⟩

/-- A state with an answer on the response ports. -/
def answered (st : SuccessStatus) (d : Data) (e : Ecc) (p : Bool) (s : State) : State :=
  { s with rsp := .answer st d e p }

/-- A state with an error on the response ports. -/
def failed (k : ErrorKind) (s : State) : State := { s with rsp := .failure k }

/-- The next state of an outcome, as data that can be compared. -/
def nextOf : Result → Option State
  | .next t => some t
  | .fault _ => none
  | .refused _ => none

theorem next_of {r : Result} {t : State} (h : nextOf r = some t) : r = .next t := by
  cases r with
  | next s => cases h; rfl
  | fault f => cases h
  | refused f => cases h

/-! ## WellFormed: what each check refuses -/

theorem test_wellFormed_word : wordWellFormed (2 ^ 75 - 1) = true ∧ wordWellFormed (2 ^ 75) = false := by decide +kernel

theorem test_wellFormed_flipD : (Pseudo.flipD 63).wellFormed = true ∧ (Pseudo.flipD 64).wellFormed = false := by decide

theorem test_wellFormed_flipE : (Pseudo.flipE 7).wellFormed = true ∧ (Pseudo.flipE 8).wellFormed = false := by decide

theorem test_wellFormed_xorW : (Pseudo.xorW 5 0).wellFormed = true := by decide

theorem test_wellFormed_instr : (Instr.load 0 0xC8).wellFormed = true ∧ Instr.reserved7.wellFormed = true := by decide

/-! ## Decoding words written out bit by bit (R73, opcode table; the packing is log 7) -/

/-- `0x3` set bits on every operand wire as well: 2^75 - 8 sets bits 3 to 74. -/
theorem test_decode_idle : decodeTableWord 75 (2 ^ 75 - 8 + 0b000) = some .idle := by decide +kernel

/-- `ENCODE 0x8000000000000001`: bit 0 of `data_i` is bit 3, bit 63 is bit 66; `ecc_i` is ignored. -/
theorem test_decode_encode :
    decodeTableWord 75 (0b001 + 2 ^ 3 + 2 ^ 66 + 0xFF * 2 ^ 67) = some (.encode 0x8000000000000001) := by decide +kernel

theorem test_decode_decode : decodeTableWord 75 (2 ^ 75 - 8 + 0b010) = some .decode := by decide +kernel

theorem test_decode_syndrome : decodeTableWord 75 (2 ^ 75 - 8 + 0b011) = some .syndrome := by decide +kernel

/-- `LOAD 0x8000000000000001, 0x81`: bit 0 of `ecc_i` is bit 67, bit 7 is bit 74. -/
theorem test_decode_load :
    decodeTableWord 75 (0b100 + 2 ^ 3 + 2 ^ 66 + 2 ^ 67 + 2 ^ 74) = some (.load 0x8000000000000001 0x81) := by
  decide +kernel

theorem test_decode_reserved :
    decodeTableWord 75 (2 ^ 75 - 8 + 0b101) = some .reserved5 ∧ decodeTableWord 75 (2 ^ 75 - 8 + 0b110) = some .reserved6 ∧
    decodeTableWord 75 (2 ^ 75 - 8 + 0b111) = some .reserved7 := by decide +kernel

/-- A word shorter than its operands has zeros above it. -/
theorem test_decode_short_word : decodeTableWord 8 0b001 = some (.encode 0) ∧ decodeTableWord 8 0b100 = some (.load 0 0) := by
  decide +kernel

theorem test_decode_rejects : decodeTableWord 76 (2 ^ 75) = none := by decide +kernel

/-- R79: the hexadecimal digits of the assembler text. -/
theorem test_text_load :
    (Instr.load 0xDEADBEEFCAFEBABE 0x3A).text = some "LOAD 0xDEADBEEFCAFEBABE, 0x3A".toList := by decide +kernel

/-! ## The Coverage Table and `computeECC` (2.1, 2.2) -/

/-- 2.1: the lookups at the ends of each range of positions. -/
theorem test_table_ends :
    [3, 5, 6, 7, 9, 31, 33, 63, 65, 71].map (fun p => positionToDataBit (BitVec.ofNat 7 p)) =
      [some 0, some 1, some 2, some 3, some 4, some 25, some 26, some 56, some 57, some 63] := by decide +kernel

/-- 2.1: `NONE` at the parity slots, at 0 and above 71. -/
theorem test_table_none :
    [1, 2, 4, 8, 16, 32, 64, 0, 72, 100, 127].all (fun p => (positionToDataBit (BitVec.ofNat 7 p)).isNone) = true := by
  decide +kernel

/-- 2.1: the OR of the seven masks. -/
theorem test_masks_cover_all : (List.finRange 7).foldl (fun x k => x ||| coverageMask k) 0 = 0xFFFFFFFFFFFFFFFF := by
  decide +kernel

/-- 2.2: sparse data words. -/
theorem test_computeECC_sparse :
    [0x1, 0x2, 0x4, 0x8, 0x7, 0x8000000000000000, 0x8000000000000001].map (fun n => computeECC (BitVec.ofNat 64 n)) =
      [0x83, 0x85, 0x86, 0x07, 0x80, 0xC7, 0x44] := by decide +kernel

/-- 2.2: dense data words. -/
theorem test_computeECC_dense :
    [0xDEADBEEFCAFEBABB, 0x0123456789ABCDEF, 0x5555555555555555, 0xAAAAAAAAAAAAAAAA, 0xFFFFFFFF00000000,
      0x00000000FFFFFFFF].map (fun n => computeECC (BitVec.ofNat 64 n)) =
      [0x3F, 0x9C, 0x55, 0xAA, 0xE7, 0x18] := by decide +kernel

/-! ## One step of each operation (2.3, 2.5, P1 to P4) -/

/-- 2.5: IDLE on a word gives no response and leaves the word. -/
theorem test_idle : nextOf (exec .idle (failed .uncorrectable (wordState 0xDEADBEEFCAFEBABE 0x3A))) =
    some (wordState 0xDEADBEEFCAFEBABE 0x3A) := by decide +kernel

/-- 2.5: the old ecc is discarded unchecked. -/
theorem test_encode : nextOf (exec (.encode 0xDEADBEEFCAFEBABB) (wordState 0xDEADBEEFCAFEBABB 0x3A)) =
    some (answered .clean 0xDEADBEEFCAFEBABB 0x3F false (wordState 0xDEADBEEFCAFEBABB 0x3F)) := by decide +kernel

/-- P2, step 2: ENCODE with no word present. -/
theorem test_encode_empty : nextOf (exec (.encode 0xDEADBEEFCAFEBABE) (emptyState 5 5)) =
    some (answered .clean 0xDEADBEEFCAFEBABE 0x3A false (wordState 0xDEADBEEFCAFEBABE 0x3A)) := by decide +kernel

/-- 2.5: LOAD with no word present, of a word that is no code word. -/
theorem test_load : nextOf (exec (.load 0 0xC8) (emptyState 5 5)) =
    some (answered .clean 0 0xC8 false (wordState 0 0xC8)) := by decide +kernel

/-- P1, step 5. -/
theorem test_syndrome : nextOf (exec .syndrome (wordState 0xDEADBEEFCAFCBABE 0x3A)) =
    some (answered .clean 0xAD 0x97 true (wordState 0xDEADBEEFCAFCBABE 0x3A)) := by decide +kernel

/-- 2.5: SYNDROME with no word present. -/
theorem test_syndrome_noWord : nextOf (exec .syndrome (emptyState 0 0xC8)) =
    some (failed (.invariant .noWord) (emptyState 0 0xC8)) := by decide +kernel

/-- V20: three flipped data bits, miscorrected at data bit 10. -/
theorem test_decode_miscorrects : nextOf (exec .decode (wordState 0xDEADBEEFCAFEBAAD 0x3A)) =
    some (answered .correctedData 0xDEADBEEFCAFEBEAD 0x3A false (wordState 0xDEADBEEFCAFEBEAD 0x3A)) := by decide +kernel

/-- V19: three flipped data bits whose positions XOR to 0: the check bits are recomputed from the data as it stands. -/
theorem test_decode_overall : nextOf (exec .decode (wordState 0xDEADBEEFCAFEBAB9 0x3A)) =
    some (answered .correctedEcc 0xDEADBEEFCAFEBAB9 0xBA false (wordState 0xDEADBEEFCAFEBAB9 0xBA)) := by decide +kernel

/-- 2.5: a reserved code with no word present is `ILLEGAL_OP`, not `NO_WORD`. -/
theorem test_reserved5 : nextOf (exec .reserved5 (emptyState 0 0)) =
    some (failed (.invariant .illegalOp) (emptyState 0 0)) := by decide +kernel

theorem test_reserved6 : nextOf (exec .reserved6 (emptyState 0 0)) =
    some (failed (.invariant .illegalOp) (emptyState 0 0)) := by decide +kernel

theorem test_reserved7 : nextOf (exec .reserved7 (wordState 0xDEADBEEFCAFEBABE 0x3A)) =
    some (failed (.invariant .illegalOp) (wordState 0xDEADBEEFCAFEBABE 0x3A)) := by decide +kernel

/-! ## Steps from `State.reset` -/

/-- P3, step 2: the first command after reset. -/
theorem test_step_decode_from_reset :
    (nextOf (step (State.reset.withFetchWord 8 0b010))).map State.rsp = some (.failure (.invariant .noWord)) := by
  decide +kernel

/-- P1, step 2: the first command after reset. -/
theorem test_step_encode_from_reset :
    (nextOf (step (State.reset.withFetchWord 67 (0b001 + 0xDEADBEEFCAFEBABE * 8)))).map State.pw =
      some ⟨true, 0xDEADBEEFCAFEBABE, 0x3A⟩ := by decide +kernel

/-- R160: a reset step takes the word away. -/
theorem test_step_reset :
    (nextOf (step { wordState 0 0 with host := [.reset] })).map (fun t => (t.pw.valid, t.rsp, t.host)) =
      some (false, .noResponse, []) := by decide +kernel

/-! ## Witnesses: for every obligation with hypotheses, a state and operands that meet them -/

theorem witness_ResetIsTheOnlyWayToNoWord : (wordState 0 0).pw.valid = true := rfl

/-- V12: a word, an error on it, and no word. -/
theorem witness_ResetStateHoldsNoWord :
    (wordState 0xDEADBEEFCAFEBABB 0x3A).pw.valid = true ∧ (emptyState 7 7).pw.valid = false ∧
    exec .decode (wordState 0xDEADBEEFCAFEBABB 0x3A) =
      .next (failed .uncorrectable (wordState 0xDEADBEEFCAFEBABB 0x3A)) ∧
    (failed .uncorrectable (wordState 0xDEADBEEFCAFEBABB 0x3A)).rsp = .failure .uncorrectable :=
  ⟨rfl, rfl, next_of (by decide +kernel), rfl⟩

theorem witness_BootNeedsAWordForDecodeAndSyndrome : (emptyState 7 7).pw.valid = false ∧ State.reset.pw.valid = false :=
  ⟨rfl, rfl⟩

theorem witness_ContentsAreNotReadWhileInvalid :
    (emptyState 0 0).pw.valid = false ∧ (emptyState 7 7).pw.valid = false ∧ (emptyState 0 0).pw ≠ (emptyState 7 7).pw := by
  decide

theorem witness_ReservedCodesRespondIllegalOp :
    exec .reserved6 (emptyState 0 0) = .next (failed (.invariant .illegalOp) (emptyState 0 0)) ∧
    (failed (.invariant .illegalOp) (emptyState 0 0)).rsp = .failure (.invariant .illegalOp) := ⟨rfl, rfl⟩

theorem witness_SyndromeReportsAndChangesNothing :
    (wordState 0xDEADBEEFCAFCBABE 0x3A).pw.valid = true ∧ (emptyState 0 0xC8).pw.valid = false := ⟨rfl, rfl⟩

theorem witness_NoWordIsRaisedByDecodeAndSyndromeOnly :
    (emptyState 0 0).pw.valid = false ∧
    exec .decode (emptyState 0 0) = .next (failed (.invariant .noWord) (emptyState 0 0)) ∧
    exec .syndrome (emptyState 0 0) = .next (failed (.invariant .noWord) (emptyState 0 0)) :=
  ⟨rfl, next_of (by decide +kernel), next_of (by decide +kernel)⟩

/-- V1, V35. -/
theorem witness_DecodeOfCleanWordAnswersIt :
    (wordState 0xDEADBEEFCAFEBABE 0x3A).pw.valid = true ∧ hammingSyndrome 0xDEADBEEFCAFEBABE 0x3A = 0 ∧
    parityError 0xDEADBEEFCAFEBABE 0x3A = false ∧
    hammingSyndrome 0xFFFFFFFFFFFFFFFF 0xFF = 0 ∧ parityError 0xFFFFFFFFFFFFFFFF 0xFF = false := by decide +kernel

/-- V8, V10: the lowest and the highest parity slot. -/
theorem witness_DecodeAtParitySlotRewritesEcc :
    (wordState 0xDEADBEEFCAFEBABE 0x3B).pw.valid = true ∧ parityError 0xDEADBEEFCAFEBABE 0x3B = true ∧
    (hammingSyndrome 0xDEADBEEFCAFEBABE 0x3B).toNat = 2 ^ 0 ∧
    parityError 0xDEADBEEFCAFEBABE 0x7A = true ∧ (hammingSyndrome 0xDEADBEEFCAFEBABE 0x7A).toNat = 2 ^ 6 := by decide +kernel

/-- V2, V7: the lowest and the highest data bit. -/
theorem witness_DecodeAtDataBitInvertsIt :
    (wordState 0xDEADBEEFCAFEBABF 0x3A).pw.valid = true ∧ parityError 0xDEADBEEFCAFEBABF 0x3A = true ∧
    positionToDataBit (hammingSyndrome 0xDEADBEEFCAFEBABF 0x3A) = some 0 ∧
    parityError 0x5EADBEEFCAFEBABE 0x3A = true ∧
    positionToDataBit (hammingSyndrome 0x5EADBEEFCAFEBABE 0x3A) = some 63 := by decide +kernel

/-- V11, V36. -/
theorem witness_DecodeOfOverallParityBitRewritesEcc :
    (wordState 0xDEADBEEFCAFEBABE 0xBA).pw.valid = true ∧ parityError 0xDEADBEEFCAFEBABE 0xBA = true ∧
    hammingSyndrome 0xDEADBEEFCAFEBABE 0xBA = 0 ∧
    parityError 0xFFFFFFFFFFFFFFFF 0x7F = true ∧ hammingSyndrome 0xFFFFFFFFFFFFFFFF 0x7F = 0 := by decide +kernel

/-- V15, V32: the lowest and the highest Hamming syndrome. -/
theorem witness_DecodeOfEvenErrorIsUncorrectable :
    (wordState 0xDEADBEEFCAFEBABE 0xBB).pw.valid = true ∧ parityError 0xDEADBEEFCAFEBABE 0xBB = false ∧
    hammingSyndrome 0xDEADBEEFCAFEBABE 0xBB = 1 ∧
    parityError 0 0xFF = false ∧ hammingSyndrome 0 0xFF = 127 := by decide +kernel

/-- V30, V31: the lowest and the highest position beyond the last; and an `INVARIANT_TABLE` response. -/
theorem witness_DecodeBeyondLastPositionIsInvariantTable :
    (wordState 0 0xC8).pw.valid = true ∧ parityError 0 0xC8 = true ∧ (hammingSyndrome 0 0xC8).toNat = 72 ∧
    parityError 0 0x7F = true ∧ (hammingSyndrome 0 0x7F).toNat = 127 ∧
    nextOf (exec .decode (wordState 0 0xC8)) = some (failed (.invariant .table) (wordState 0 0xC8)) := by decide +kernel

/-- R67: values that are no powers of two, on both sides of the edge at 72 and at the lowest. -/
theorem witness_DecodeBeyondLastPositionIsInvariantTable_lookup :
    ∀ n ∈ [3, 71, 72, 127], 1 ≤ (BitVec.ofNat 7 n).toNat ∧ ∀ k : Fin 7, (BitVec.ofNat 7 n).toNat ≠ 2 ^ k.val := by
  decide +kernel

/-- V2 for CORRECTED_DATA, V11 for CORRECTED_ECC, V12 for neither. -/
theorem witness_RegisterIsWrittenOnlyAsListed_decode :
    nextOf (exec .decode (wordState 0xDEADBEEFCAFEBABF 0x3A)) =
      some (answered .correctedData 0xDEADBEEFCAFEBABE 0x3A false (wordState 0xDEADBEEFCAFEBABE 0x3A)) ∧
    nextOf (exec .decode (wordState 0xDEADBEEFCAFEBABE 0xBA)) =
      some (answered .correctedEcc 0xDEADBEEFCAFEBABE 0x3A false (wordState 0xDEADBEEFCAFEBABE 0x3A)) ∧
    nextOf (exec .decode (wordState 0xDEADBEEFCAFEBABB 0x3A)) =
      some (failed .uncorrectable (wordState 0xDEADBEEFCAFEBABB 0x3A)) := by decide +kernel

theorem witness_ResponsePortsFollowTheBinding :
    (wordState 0 0).pw.valid = true ∧ (emptyState 0 0).pw.valid = false ∧
    (Instr.reserved5 = .reserved5 ∨ Instr.reserved5 = .reserved6 ∨ Instr.reserved5 = .reserved7) := by decide

theorem witness_StatusCodesTellTheKindsApart :
    statusCode (.error (.invariant .table)) = statusCode (.error (.invariant .table)) ∧
    (statusCode (.success .correctedEcc)).toNat ≤ 2 ∧ 4 ≤ (statusCode (.error (.invariant .table))).toNat := by decide

theorem witness_EncodeLoadAndIdleCannotFail :
    exec .syndrome (emptyState 0 0) = .next (failed (.invariant .noWord) (emptyState 0 0)) ∧
    (failed (.invariant .noWord) (emptyState 0 0)).rsp = .failure (.invariant .noWord) :=
  ⟨next_of (by decide +kernel), rfl⟩

theorem witness_ErrorsHaveAFixedPriority :
    5 ≤ (⟨5, 0, 0⟩ : Command).op.toNat ∧ 5 ≤ (⟨7, 0, 0⟩ : Command).op.toNat ∧
    (⟨2, 0, 0⟩ : Command).op = 2 ∧ (⟨3, 0, 0⟩ : Command).op = 3 ∧
    (emptyState 0 0).pw.valid = false ∧ (wordState 0 0).pw.valid = true := by decide

/-- R80: the ends of each range of bit indexes. -/
theorem witness_PseudoCommandsXorTheWord :
    (wordState 0 0).pw.valid = true ∧ (0 < 64 ∧ 63 < 64) ∧ (0 < 8 ∧ 7 < 8) ∧ (emptyState 0 0).pw.valid = false ∧
    64 ≤ 64 ∧ 8 ≤ 8 := by decide

theorem witness_StepRunsTheDecodedCommand :
    ({ wordState 0 0 with host := [.command ⟨0b011, 0, 0⟩] } : State).host = .command ⟨0b011, 0, 0⟩ :: [] ∧
    ({ wordState 0 0 with host := [.reset] } : State).host = .reset :: [] ∧ (wordState 0 0).host = [] ∧
    decodeTableWord 8 0b011 = some .syndrome ∧
    decodeTableWord 75 (0b100 + 2 ^ 3 + 2 ^ 74) = some (.load 1 0x80) := by decide +kernel

theorem witness_DecodeInvertsEncode :
    (Instr.load 0xFFFFFFFFFFFFFFFF 0xFF).wellFormed = true ∧ 2 ^ 75 ≤ 2 ^ 75 := by decide

theorem witness_UnreadOperandPortsAreIgnored :
    (decodeCommand ⟨2, 0, 0⟩).format = .N ∧ (decodeCommand ⟨7, 1, 1⟩).format = .N ∧ (decodeCommand ⟨1, 0, 0⟩).format = .D := by
  decide

theorem witness_DataBitsTakeAscendingPositions :
    (0 : Fin 64) < 63 ∧ 1 ≤ (3 : Fin 72).val ∧ (∀ k : Fin 7, (3 : Fin 72).val ≠ 2 ^ k.val) ∧
    (∀ k : Fin 7, (71 : Fin 72).val ≠ 2 ^ k.val) := by decide

/-- 2.1. -/
theorem witness_PositionTableInvertsPositions :
    positionToDataBit 3 = some 0 ∧ positionToDataBit 71 = some 63 := by decide +kernel

theorem witness_CoverageTableViewsAgree :
    (∀ n ∈ [3, 71], 1 ≤ (BitVec.ofNat 7 n).toNat ∧ (BitVec.ofNat 7 n).toNat ≤ 71 ∧
      ∀ k : Fin 7, (BitVec.ofNat 7 n).toNat ≠ 2 ^ k.val) ∧
    positionToDataBit 71 = some 63 ∧
    (∀ k : Fin 7, (coverageMask k).getLsbD (0 : Fin 64).val = (coverageMask k).getLsbD (0 : Fin 64).val) := by
  decide +kernel

/-- R63: data bits 0 and 63 at positions 3 and 71. -/
theorem witness_FlipInvertsOneBitOfTheView :
    (1 : Fin 72).val = 2 ^ (0 : Fin 7).val ∧ (64 : Fin 72).val = 2 ^ (6 : Fin 7).val ∧
    (3 : Fin 72).val = (pos 0).toNat ∧ (71 : Fin 72).val = (pos 63).toNat := by decide +kernel

/-- 2.2: a code word, for the hypotheses of SyndromeLawForFlippedBits, OneFlippedBitIsCorrected and UnflippedWordDecodesClean. -/
theorem witness_SyndromeLawForFlippedBits : isCodeWord 0xDEADBEEFCAFEBABE 0x3A := by decide +kernel

/-- 2.2: two distinct code words. -/
theorem witness_CodeWordsDifferInFourBitsOrMore :
    isCodeWord 0 0 ∧ isCodeWord 7 0x80 ∧ (0 : Data) ≠ 7 := by decide +kernel

/-- V1, V8, V2, V30, V11, V12: one word for each row of the table. -/
theorem witness_ClassificationFollowsTheTable :
    (hammingSyndrome 0xDEADBEEFCAFEBABE 0x3A = 0 ∧ parityError 0xDEADBEEFCAFEBABE 0x3A = false) ∧
    ((hammingSyndrome 0xDEADBEEFCAFEBABE 0x3B).toNat = 2 ^ (0 : Fin 7).val ∧ parityError 0xDEADBEEFCAFEBABE 0x3B = true) ∧
    ((hammingSyndrome 0xDEADBEEFCAFEBABF 0x3A).toNat = 3 ∧ parityError 0xDEADBEEFCAFEBABF 0x3A = true) ∧
    ((hammingSyndrome 0 0xC8).toNat = 72 ∧ parityError 0 0xC8 = true) ∧
    (hammingSyndrome 0xDEADBEEFCAFEBABE 0xBA = 0 ∧ parityError 0xDEADBEEFCAFEBABE 0xBA = true) ∧
    (hammingSyndrome 0xDEADBEEFCAFEBABB 0x3A = 5 ∧ parityError 0xDEADBEEFCAFEBABB 0x3A = false) := by decide +kernel

/-- V37, V33: the other end of the range of data positions, 71. -/
theorem witness_ClassificationFollowsTheTable_last :
    (hammingSyndrome 0x7FFFFFFFFFFFFFFF 0xFF).toNat = 71 ∧ parityError 0x7FFFFFFFFFFFFFFF 0xFF = true ∧
    (hammingSyndrome 0 0xC7).toNat = 71 ∧ parityError 0 0xC7 = true := by decide +kernel

/-- V2 (nothing in `ecc` differs), V10, V11: the three kinds of rewrite, and V12, where nothing is rewritten. -/
theorem witness_CorrectionChangesExactlyOneBit :
    ((hammingEccDecoder 0xDEADBEEFCAFEBABF 0x3A).rewrite = true ∧
      positionToDataBit (hammingSyndrome 0xDEADBEEFCAFEBABF 0x3A) = some 0) ∧
    ((hammingEccDecoder 0xDEADBEEFCAFEBABE 0x7A).rewrite = true ∧
      (hammingSyndrome 0xDEADBEEFCAFEBABE 0x7A).toNat = 2 ^ (6 : Fin 7).val) ∧
    ((hammingEccDecoder 0xDEADBEEFCAFEBABE 0xBA).rewrite = true ∧ hammingSyndrome 0xDEADBEEFCAFEBABE 0xBA = 0) := by
  decide +kernel

theorem witness_DecoderBlockIsDecodeOnTheWord :
    (hammingEccDecoder 0xDEADBEEFCAFEBABB 0x3A).rewrite = false ∧ (wordState 0 0).pw.valid = true := by decide +kernel

/-- V1, V3, V9, V13: a DECODE of each kind, for the clauses of DecodeMutatesOnlyOnCorrection, DecodeAnswersTheDataAfterTheStep,
CodeWordAfterEncodeAndSuccessfulDecode and SecondDecodeChangesNothing. -/
theorem witness_DecodeMutatesOnlyOnCorrection :
    nextOf (exec .decode (wordState 0xDEADBEEFCAFEBABE 0x3A)) =
      some (answered .clean 0xDEADBEEFCAFEBABE 0x3A false (wordState 0xDEADBEEFCAFEBABE 0x3A)) ∧
    nextOf (exec .decode (wordState 0xDEADBEEFCAFEBAB6 0x3A)) =
      some (answered .correctedData 0xDEADBEEFCAFEBABE 0x3A false (wordState 0xDEADBEEFCAFEBABE 0x3A)) ∧
    nextOf (exec .decode (wordState 0xDEADBEEFCAFEBABE 0x32)) =
      some (answered .correctedEcc 0xDEADBEEFCAFEBABE 0x3A false (wordState 0xDEADBEEFCAFEBABE 0x3A)) ∧
    nextOf (exec .decode (wordState 0xDEADBEEFCAFEBABD 0x3A)) =
      some (failed .uncorrectable (wordState 0xDEADBEEFCAFEBABD 0x3A)) := by decide +kernel

theorem witness_DecodeAnswersTheDataAfterTheStep :
    exec .decode (wordState 0 0) = .next (answered .clean 0 0 false (wordState 0 0)) ∧
    exec .decode (wordState 0 0x48) = .next (failed .uncorrectable (wordState 0 0x48)) :=
  ⟨next_of (by decide +kernel), next_of (by decide +kernel)⟩

theorem witness_CodeWordAfterEncodeAndSuccessfulDecode :
    exec (.encode 0) (emptyState 0 0) = .next (answered .clean 0 0 false (wordState 0 0)) ∧
    exec .decode (wordState 0 0x80) = .next (answered .correctedEcc 0 0 false (wordState 0 0)) ∧
    exec .decode (wordState 0 0x47) = .next (failed .uncorrectable (wordState 0 0x47)) ∧
    exec .decode (wordState 0 0x7F) = .next (failed (.invariant .table) (wordState 0 0x7F)) :=
  ⟨next_of (by decide +kernel), next_of (by decide +kernel), next_of (by decide +kernel), next_of (by decide +kernel)⟩

/-- V27, V35. -/
theorem witness_UnflippedWordDecodesClean :
    (wordState 0 0).pw.valid = true ∧ isCodeWord 0 0 ∧ isCodeWord 0xFFFFFFFFFFFFFFFF 0xFF := by decide +kernel

theorem witness_OneFlippedBitIsCorrected : isCodeWord 0xFFFFFFFFFFFFFFFF 0xFF := by decide +kernel

theorem witness_TwoFlippedBitsAreDetected : isCodeWord 0xDEADBEEFCAFEBABE 0x3A ∧ (0 : Fin 72) ≠ 71 := by decide +kernel

/-- V20, V25: an odd and an even number of flips, and three distinct flips with a rewrite (data bits 0, 1 and 4 stand at
positions 3, 5 and 9). -/
theorem witness_MoreFlipsAreMiscategorisedAsTheRulesSay :
    isCodeWord 0xDEADBEEFCAFEBABE 0x3A ∧ [(3 : Fin 72), 5, 9].length % 2 = 1 ∧ [(3 : Fin 72), 5, 6, 0].length % 2 = 0 ∧
    xorPositions [3, 5, 6, 0] = 0 ∧ (3 : Fin 72) ≠ 5 ∧ (3 : Fin 72) ≠ 9 ∧ (5 : Fin 72) ≠ 9 ∧
    (hammingEccDecoder (0xDEADBEEFCAFEBABE ^^^ flipsData [3, 5, 9]) (0x3A ^^^ flipsEcc [3, 5, 9])).rewrite = true := by
  decide +kernel

theorem witness_SecondDecodeChangesNothing :
    exec .decode (wordState 0 0xC7) =
      .next (answered .correctedData 0x8000000000000000 0xC7 false (wordState 0x8000000000000000 0xC7)) ∧
    exec .decode (wordState 0 0xFF) = .next (failed .uncorrectable (wordState 0 0xFF)) :=
  ⟨next_of (by decide +kernel), next_of (by decide +kernel)⟩

/-- V7: data bit 63, the highest syndrome that addresses a bit. -/
theorem witness_OutcomeClassesHaveTheirSizes :
    hammingSyndrome 0x5EADBEEFCAFEBABE 0x3A = 71 ∧ parityError 0x5EADBEEFCAFEBABE 0x3A = true := by decide +kernel

theorem witness_NothingButTheWordIsRemembered :
    (wordState 0 0).pw = (failed .uncorrectable { wordState 0 0 with host := [.reset], resets := 9 }).pw ∧
    wordState 0 0 ≠ failed .uncorrectable { wordState 0 0 with host := [.reset], resets := 9 } := by decide

/-- P1, step 2, and V2: an ENCODE, a DECODE and a LOAD as the next move, and what a step answers to the second. -/
theorem witness_EveryStepLeavesATrueResponse :
    ({ wordState 0 0 with host := [.command ⟨1, 7, 0⟩] } : State).host = .command ⟨1, 7, 0⟩ :: [] ∧
    (⟨1, 7, 0⟩ : Command).op = 1 ∧ (⟨2, 0, 0⟩ : Command).op = 2 ∧ (⟨4, 7, 0⟩ : Command).op = 4 ∧
    (nextOf (step { wordState 0xDEADBEEFCAFEBABF 0x3A with host := [.command ⟨2, 0, 0⟩] })).map State.rsp =
      some (.answer .correctedData 0xDEADBEEFCAFEBABE 0x3A false) := by decide +kernel

/-- A state that holds a code word, with moves to come that are no LOAD. -/
theorem witness_WithoutLoadTheRegisterHoldsACodeWord :
    HoldsCodeWord { wordState 7 0x80 with host := [.command ⟨0b010, 0, 0⟩, .reset] } ∧
    NoLoadPending { wordState 7 0x80 with host := [.command ⟨0b010, 0, 0⟩, .reset] } ∧
    (nextOf (step { wordState 7 0x80 with host := [.command ⟨0b010, 0, 0⟩, .reset] })).map State.rsp =
      some (.answer .clean 7 0x80 false) ∧
    (wordState 7 0x80).pw.valid = true := by
  refine ⟨fun _ => by decide +kernel, ?_, by decide +kernel, rfl⟩
  intro m hm
  simp only [List.mem_cons, List.not_mem_nil, or_false] at hm
  obtain rfl | rfl := hm <;> decide

theorem witness_InstancesAreIndependent : (0 : Nat) ≠ 1 ∧ [wordState 0 0, emptyState 0 0][1]? = some (emptyState 0 0) := by
  decide

end Sys2Proof.Tests
end

/-!
SUPPORT. The scope of the block: what it takes for a power of two (R10), how far its code words lie apart (R2), and what an
operation's effect depends on (R15, R28, R149).
-/

namespace Sys2Proof.Proofs

open Sys2Proof.Machine Sys2Proof.Laws

/-! ## The power-of-two test -/

theorem isPow2_iff_popcount {w : Nat} (v : BitVec w) : isPow2 v = true ↔ popcount v = 1 := beq_iff_eq

/-- The parity slots, written out as the list of R10. -/
theorem slot_iff_mem (n : Nat) : (∃ k : Fin 7, n = 2 ^ k.val) ↔ n ∈ [1, 2, 4, 8, 16, 32, 64] := by
  simp [Fin.exists_fin_succ]

/-- Settles O33: the test counts the set bits, and the values with one set bit are the parity slots. -/
theorem powerOfTwoTestIsTheList : Obligations.PowerOfTwoTestIsTheList :=
  ⟨isPow2_iff_popcount, fun p => (isPow2_iff_slot p).trans (slot_iff_mem p.toNat),
    Bool.eq_false_iff.mpr fun h => isPow2_ne_zero 0 h rfl⟩

/-! ## The code is linear, so distances are weights -/

/-- `computeECC` is linear: each of its bits is a parity of data bits (R90). -/
theorem computeECC_xor (a b : Data) : computeECC (a ^^^ b) = computeECC a ^^^ computeECC b := by
  apply ecc_ext
  · rw [low_xor, computeECC_low, computeECC_low, computeECC_low, hammingBits_xor]
  · rw [BitVec.getLsbD_xor, getLsbD_computeECC_seven, getLsbD_computeECC_seven, getLsbD_computeECC_seven,
      overallBit_eq, overallBit_eq, overallBit_eq, hammingBits_xor, parity_xor, parity_xor]
    cases parity a <;> cases parity b <;> simp

theorem cw72_xor (d d' : Data) (e e' : Ecc) : cw72 d e ^^^ cw72 d' e' = cw72 (d ^^^ d') (e ^^^ e') := by
  apply BitVec.eq_of_getLsbD_eq
  intro i _
  simp only [cw72, BitVec.getLsbD_xor, BitVec.getLsbD_append]
  split <;> rfl

theorem popcount_cw72 (d : Data) (e : Ecc) : popcount (cw72 d e) = popcount d + popcount e := by
  rw [cw72, popcount_append, Nat.add_comm]

theorem popcount_hammingBits_le (x : Data) : popcount (hammingBits x) ≤ popcount (computeECC x) := by
  rw [computeECC, popcount_append]
  exact Nat.le_add_left _ _

/-- The 72 bits of a code word hold an even number of set bits (R90). -/
theorem codeWord_weight_even (x : Data) : (popcount x + popcount (computeECC x)) % 2 = 0 := by
  have h : ((popcount x + popcount (computeECC x)) % 2 == 1) = false := by
    rw [odd_sum, parity_computeECC, Bool.xor_self]
  simpa using h

/-! ## Peeling off one data bit -/

theorem popcount_dataBitMask : ∀ b : Fin 64, popcount (dataBitMask b) = 1 := by decide +kernel

theorem and_dataBitMask (x : Data) (b : Fin 64) (h : x.getLsbD b.val = true) : x &&& dataBitMask b = dataBitMask b := by
  apply BitVec.eq_of_getLsbD_eq
  intro i hi
  rw [BitVec.getLsbD_and, dataBitMask, ← BitVec.twoPow_eq, BitVec.getLsbD_twoPow]
  by_cases hib : b.val = i
  · simp [← hib, h]
  · simp [hib]

/-- A non-zero data word loses one set bit when the right bit is inverted. -/
theorem exists_flip_lowers_popcount (x : Data) (h : popcount x ≠ 0) :
    ∃ b : Fin 64, popcount (flipDataBit x b) + 1 = popcount x := by
  have : ¬ ∀ i < 64, x.getLsbD i = false := fun hx => h ((popcountBelow_eq_zero x 64).mpr hx)
  push Not at this
  obtain ⟨i, hi, hx⟩ := this
  refine ⟨⟨i, hi⟩, ?_⟩
  have := popcount_xor x (dataBitMask ⟨i, hi⟩)
  rw [and_dataBitMask x ⟨i, hi⟩ (by simpa using hx), popcount_dataBitMask] at this
  rw [flipDataBit]
  omega

theorem eq_dataBitMask_of_popcount_one (x : Data) (h : popcount x = 1) : ∃ b, x = dataBitMask b := by
  obtain ⟨b, hb⟩ := exists_flip_lowers_popcount x (by omega)
  have h0 : x ^^^ dataBitMask b = 0#64 := (popcount_eq_zero (flipDataBit x b)).mp (by omega)
  exact ⟨b, BitVec.xor_eq_zero_iff.mp h0⟩

theorem eq_two_dataBitMasks_of_popcount_two (x : Data) (h : popcount x = 2) :
    ∃ a b, a ≠ b ∧ x = dataBitMask a ^^^ dataBitMask b := by
  obtain ⟨b, hb⟩ := exists_flip_lowers_popcount x (by omega)
  obtain ⟨a, ha⟩ := eq_dataBitMask_of_popcount_one (flipDataBit x b) (by omega)
  have hxab : x = dataBitMask a ^^^ dataBitMask b := by
    rw [← ha, flipDataBit, BitVec.xor_assoc, BitVec.xor_self, BitVec.xor_zero]
  refine ⟨a, b, ?_, hxab⟩
  rintro rfl
  rw [hxab, BitVec.xor_self] at h
  exact absurd h (by decide)

/-! ## The positions of the data bits -/

theorem positionToDataBit_pos : ∀ b : Fin 64, positionToDataBit (pos b) = some b := by decide +kernel

theorem pos_injective {a b : Fin 64} (h : pos a = pos b) : a = b := by
  have := positionToDataBit_pos a
  rw [h, positionToDataBit_pos] at this
  exact (Option.some.inj this).symm

/-- A data bit takes part in two parity bits or more: its position is neither 0 nor a power of two (R62). -/
theorem two_le_popcount_pos (b : Fin 64) : 2 ≤ popcount (pos b) := by
  obtain ⟨h0, h1⟩ := hosted_not_slot _ _ (positionToDataBit_pos b)
  have : popcount (pos b) ≠ 0 := fun h => h0 ((popcount_eq_zero _).mp h)
  have : popcount (pos b) ≠ 1 := fun h => by simp [isPow2, h] at h1
  omega

/-! ## The minimum distance -/

/-- One set data bit comes with two Hamming bits or more, and two set data bits with one: their positions are distinct. -/
theorem three_le_popcount_add_hamming (x : Data) (h : x ≠ 0) : 3 ≤ popcount x + popcount (hammingBits x) := by
  obtain h0 | h1 | h2 | h3 : popcount x = 0 ∨ popcount x = 1 ∨ popcount x = 2 ∨ 3 ≤ popcount x := by omega
  · exact absurd ((popcount_eq_zero x).mp h0) h
  · obtain ⟨b, rfl⟩ := eq_dataBitMask_of_popcount_one x h1
    rw [h1, hammingBits_single]
    have := two_le_popcount_pos b
    omega
  · obtain ⟨a, b, hab, rfl⟩ := eq_two_dataBitMasks_of_popcount_two x h2
    rw [h2, hammingBits_xor, hammingBits_single, hammingBits_single]
    have : popcount (pos a ^^^ pos b) ≠ 0 := fun h0 =>
      hab (pos_injective (BitVec.xor_eq_zero_iff.mp ((popcount_eq_zero _).mp h0)))
    omega
  · omega

/-- The overall parity bit makes an odd weight of three even: no code word but the zero word has fewer than four bits set. -/
theorem four_le_codeWord_weight (x : Data) (h : x ≠ 0) : 4 ≤ popcount (cw72 x (computeECC x)) := by
  rw [popcount_cw72]
  have := three_le_popcount_add_hamming x h
  have := popcount_hammingBits_le x
  have := codeWord_weight_even x
  omega

/-- Settles O41: the bits in which two code words differ are the bits of a third code word, since the code is linear; the
words of the data 0 and 7 differ in four. -/
theorem codeWordsDifferInFourBitsOrMore : Obligations.CodeWordsDifferInFourBitsOrMore := by
  constructor
  · rintro d d' _ _ rfl rfl hne
    rw [cw72_xor, ← computeECC_xor]
    exact four_le_codeWord_weight (d ^^^ d') (fun h0 => hne (BitVec.xor_eq_zero_iff.mp h0))
  · exact ⟨0, 7, 0, 0x80, by decide +kernel⟩

/-! ## What an operation's effect depends on -/

/-- Two results are next states that hold the same word and carry the same response. -/
def SameEffect (r r' : Result) : Prop :=
  ∃ t t', r = .next t ∧ r' = .next t' ∧ t.pw = t'.pw ∧ t.rsp = t'.rsp

theorem sameEffect_next {t t' : State} (hpw : t.pw = t'.pw) (hrsp : t.rsp = t'.rsp) : SameEffect (.next t) (.next t') :=
  ⟨t, t', rfl, rfl, hpw, hrsp⟩

theorem sameEffect_raiseError (k : ErrorKind) {s s' : State} (h : s.pw = s'.pw) :
    SameEffect (raiseError k s) (raiseError k s') := sameEffect_next h rfl

theorem sameEffect_withWord {f : State → Result} {s s' : State} (h : s.pw = s'.pw) (hf : SameEffect (f s) (f s')) :
    SameEffect (withWord f s) (withWord f s') := by
  cases v : s'.pw.valid
  · rw [withWord_invalid f s (h ▸ v), withWord_invalid f s' v]
    exact sameEffect_next h rfl
  · rwa [withWord_valid f s (h ▸ v), withWord_valid f s' v]

/-- A word written back replaces the data and the check bits, so only the valid bit of the old word matters. -/
theorem sameEffect_finishDecode (o : DecoderOut) {s s' : State} (h : s.pw = s'.pw) :
    SameEffect (finishDecode o s) (finishDecode o s') := by
  obtain ⟨status, d, e, rewrite⟩ := o
  have hw : (writeEcc e (writeData d s)).pw = (writeEcc e (writeData d s')).pw := by
    simp only [writeEcc, writeData, h]
  cases status <;> cases rewrite
  case success.false => exact sameEffect_next h rfl
  case success.true => exact sameEffect_next hw rfl
  case error.false => exact sameEffect_raiseError _ h
  case error.true => exact sameEffect_raiseError _ hw

theorem sameEffect_execSyndrome {s s' : State} (h : s.pw = s'.pw) : SameEffect (execSyndrome s) (execSyndrome s') := by
  refine sameEffect_withWord h (sameEffect_next h ?_)
  rw [respond_rsp, respond_rsp, h]

theorem sameEffect_execDecode {s s' : State} (h : s.pw = s'.pw) : SameEffect (execDecode s) (execDecode s') := by
  refine sameEffect_withWord h ?_
  rw [h]
  exact sameEffect_finishDecode _ h

theorem sameEffect_exec (i : Instr) {s s' : State} (h : s.pw = s'.pw) : SameEffect (exec i s) (exec i s') := by
  cases i with
  | idle => exact sameEffect_next h rfl
  | encode d => exact sameEffect_next rfl rfl
  | load d e => exact sameEffect_next rfl rfl
  | syndrome => exact sameEffect_execSyndrome h
  | decode => exact sameEffect_execDecode h
  | reserved5 => exact sameEffect_raiseError _ h
  | reserved6 => exact sameEffect_raiseError _ h
  | reserved7 => exact sameEffect_raiseError _ h

/-- Settles O55: each operation reads nothing of the state but the word. -/
theorem nothingButTheWordIsRemembered : Obligations.NothingButTheWordIsRemembered := fun i _ _ h => sameEffect_exec i h

end Sys2Proof.Proofs

/-!
SUPPORT. The state of the block: that the contents of `PW` are not read while it holds no word (R23), the complete list of the
writers of `PW` (R25), and that the instances of a system do not touch each other (R34, R154).
-/

namespace Sys2Proof.Proofs

open Sys2Proof.Machine Sys2Proof.Laws

/-! ## No operation reads the contents while no word is held -/

/-- Two results are next states that carry the same response, agree on the valid bit, and hold the same word if they hold
one: all that a host can tell apart, as the fields of a word that is not there are not shown (R26). -/
def LooksAlike (r r' : Result) : Prop :=
  ∃ t t', r = .next t ∧ r' = .next t' ∧ t.rsp = t'.rsp ∧ t.pw.valid = t'.pw.valid ∧ (t.pw.valid = true → t.pw = t'.pw)

theorem looksAlike_of_noWord {s s' : State} (h : s.pw.valid = false) (h' : s'.pw.valid = false) (x : Response) :
    LooksAlike (.next { s with rsp := x }) (.next { s' with rsp := x }) :=
  ⟨_, _, rfl, rfl, rfl, h.trans h'.symm, fun hv => absurd (h.symm.trans hv) Bool.false_ne_true⟩

theorem looksAlike_of_write (s s' : State) (p : PWRegister) (x : Response) :
    LooksAlike (.next { s with pw := p, rsp := x }) (.next { s' with pw := p, rsp := x }) :=
  ⟨_, _, rfl, rfl, rfl, rfl, fun _ => rfl⟩

/-- ENCODE and LOAD overwrite the whole word; every other operation answers without looking at one. -/
theorem looksAlike_exec (i : Instr) {s s' : State} (h : s.pw.valid = false) (h' : s'.pw.valid = false) :
    LooksAlike (exec i s) (exec i s') := by
  cases i with
  | encode d => exact looksAlike_of_write s s' ⟨true, d, computeECC d⟩ _
  | load d e => exact looksAlike_of_write s s' ⟨true, d, e⟩ _
  | decode =>
    rw [exec_decode_invalid s h, exec_decode_invalid s' h']
    exact looksAlike_of_noWord h h' _
  | syndrome =>
    rw [exec_syndrome_invalid s h, exec_syndrome_invalid s' h']
    exact looksAlike_of_noWord h h' _
  | idle => exact looksAlike_of_noWord h h' _
  | reserved5 => exact looksAlike_of_noWord h h' _
  | reserved6 => exact looksAlike_of_noWord h h' _
  | reserved7 => exact looksAlike_of_noWord h h' _

/-! ## The valid bit -/

theorem decode_keeps_valid {s t : State} (h : ExecCase s .decode t) : t.pw.valid = s.pw.valid := by
  cases h with
  | decodeEcc v _ _ => exact v.symm
  | decodeData _ v _ _ => exact v.symm
  | _ => rfl

theorem pw_eq_of_no_writer {i : Instr} {s t : State} (h : ExecCase s i t)
    (hi : i = .idle ∨ i = .syndrome ∨ i = .reserved5 ∨ i = .reserved6 ∨ i = .reserved7) : t.pw = s.pw := by
  obtain rfl | rfl | rfl | rfl | rfl := hi <;> cases h <;> rfl

theorem valid_after_iff {i : Instr} {s t : State} (h : ExecCase s i t) :
    t.pw.valid = true ↔ s.pw.valid = true ∨ (∃ d, i = .encode d) ∨ ∃ d e, i = .load d e := by
  cases i with
  | encode d => cases h; simp
  | load d e => cases h; simp
  | decode => simp [decode_keeps_valid h]
  | _ => simp [pw_eq_of_no_writer h]

/-- Settles O4: by the operations that set the valid bit, and by `looksAlike_exec` for those that could read the contents. -/
theorem contentsAreNotReadWhileInvalid : Obligations.ContentsAreNotReadWhileInvalid := by
  refine ⟨rfl, takeReset_valid, fun i s => ?_, fun i _ _ => looksAlike_exec i, fun s h => ?_⟩
  · obtain ⟨t, ht, hc⟩ := exec_cases i s
    exact ⟨t, ht, valid_after_iff hc⟩
  · exact ⟨exec_decode_invalid s h, exec_syndrome_invalid s h⟩

/-! ## What a correction leaves -/

theorem popcount_ecc (e : Ecc) : popcount e = popcount (e.extractLsb' 0 7) + (e.getLsbD 7).toNat := by
  simp [popcount, popcountBelow]

/-- Bit 7 is what the low seven bits and the parity leave open. -/
theorem ecc_ext_parity {a b : Ecc} (h : a.extractLsb' 0 7 = b.extractLsb' 0 7) (hp : parity a = parity b) : a = b := by
  rw [Bool.eq_iff_iff] at hp
  simp only [parity, popcount_ecc, h, beq_iff_eq] at hp
  have ha := Bool.toNat_le (a.getLsbD 7)
  have hb := Bool.toNat_le (b.getLsbD 7)
  have h7 : (a.getLsbD 7).toNat = (b.getLsbD 7).toNat := by omega
  exact ecc_ext a b h (by rw [← Bool.ofNat_toNat (a.getLsbD 7), h7, Bool.ofNat_toNat])

theorem parityError_eq (d : Data) (e : Ecc) : parityError d e = (parity d ^^ parity e) := odd_sum d e

theorem parity_syndromeOf (d : Data) (e : Ecc) : parity (syndromeOf d e) = parityError d e := by
  rw [syndromeOf, hammingEccEncoder, parity_xor, parity_computeECC, parityError_eq, Bool.xor_comm]

theorem syndromeOf_low (d : Data) (e : Ecc) : (syndromeOf d e).extractLsb' 0 7 = hammingSyndrome d e := rfl

/-- At a parity slot, and at position 0, the recomputed check bits differ from the stored ones in one bit (R113, R115): of the
syndrome at most one low bit is set, and an odd number in all. -/
theorem popcount_computeECC_xor_of_ecc_error {d : Data} {e : Ecc}
    (h : hammingSyndrome d e = 0 ∨ isPow2 (hammingSyndrome d e) = true) (p : parityError d e = true) :
    popcount (computeECC d ^^^ e) = 1 := by
  have hlow : popcount (hammingSyndrome d e) ≤ 1 := by
    rcases h with h | h
    · exact ((popcount_eq_zero _).mpr h).le.trans (Nat.zero_le 1)
    · exact ((isPow2_iff_popcount _).mp h).le
  have hodd : popcount (syndromeOf d e) % 2 = 1 := by
    simpa [parity] using (parity_syndromeOf d e).trans p
  have hle : popcount (syndromeOf d e) ≤ popcount (hammingSyndrome d e) + 1 := by
    rw [popcount_ecc, syndromeOf_low]
    exact Nat.add_le_add_left (Bool.toNat_le _) _
  rw [BitVec.xor_comm]
  change popcount (syndromeOf d e) = 1
  omega

theorem flipDataBit_xor_self (d : Data) (b : Fin 64) : flipDataBit d b ^^^ d = dataBitMask b := by
  rw [flipDataBit, BitVec.xor_comm d, BitVec.xor_assoc, BitVec.xor_self, BitVec.xor_zero]

theorem hosted_eq_pos : ∀ (p : HamSyn) (b : Fin 64), positionToDataBit p = some b → p = pos b := by decide +kernel

theorem parity_flipDataBit (d : Data) (b : Fin 64) : parity (flipDataBit d b) = !parity d := by
  have hb : parity (dataBitMask b) = true := by rw [parity, popcount_dataBitMask]; rfl
  rw [flipDataBit, parity_xor, hb, Bool.xor_true]

/-- At a data bit's position the stored check bits are already those of the corrected data (R114): the low seven by the
syndrome, bit 7 by the parity error. -/
theorem computeECC_flipDataBit_of_data_error {d : Data} {e : Ecc} {b : Fin 64}
    (h : positionToDataBit (hammingSyndrome d e) = some b) (p : parityError d e = true) :
    computeECC (flipDataBit d b) = e := by
  apply ecc_ext_parity
  · have hpos := hosted_eq_pos _ b h
    rw [hammingSyndrome_eq] at hpos
    rw [computeECC_low, flipDataBit, hammingBits_xor, hammingBits_single, ← hpos, BitVec.xor_comm, BitVec.xor_assoc,
      BitVec.xor_self, BitVec.xor_zero]
  · rw [parityError_eq] at p
    rw [parity_computeECC, parity_flipDataBit]
    cases hd : parity d <;> simpa [hd] using p

/-! ## The writers of the register -/

theorem decode_correctedData_pw {s t : State} {d : Data} {e : Ecc} {p : Bool} (h : ExecCase s .decode t)
    (hr : t.rsp = .answer .correctedData d e p) :
    popcount (t.pw.data ^^^ s.pw.data) = 1 ∧ t.pw.ecc = computeECC t.pw.data ∧ t.pw.ecc = s.pw.ecc := by
  cases h with
  | decodeData b _ hb hp =>
    refine ⟨?_, rfl, computeECC_flipDataBit_of_data_error hb hp⟩
    rw [flipDataBit_xor_self, popcount_dataBitMask]
  | _ => cases hr

theorem decode_correctedEcc_pw {s t : State} {d : Data} {e : Ecc} {p : Bool} (h : ExecCase s .decode t)
    (hr : t.rsp = .answer .correctedEcc d e p) :
    t.pw.data = s.pw.data ∧ t.pw.ecc = computeECC t.pw.data ∧ popcount (t.pw.ecc ^^^ s.pw.ecc) = 1 := by
  cases h with
  | decodeEcc _ hs hp => exact ⟨rfl, rfl, popcount_computeECC_xor_of_ecc_error hs hp⟩
  | _ => cases hr

theorem decode_pw_of_no_correction {s t : State} (h : ExecCase s .decode t)
    (hd : ∀ d e p, t.rsp ≠ .answer .correctedData d e p) (he : ∀ d e p, t.rsp ≠ .answer .correctedEcc d e p) :
    t.pw = s.pw := by
  cases h with
  | decodeData _ _ _ _ => exact absurd rfl (hd _ _ _)
  | decodeEcc _ _ _ => exact absurd rfl (he _ _ _)
  | _ => rfl

/-- Settles O18: one clause for each writer, and one for the operations that write nothing. -/
theorem registerIsWrittenOnlyAsListed : Obligations.RegisterIsWrittenOnlyAsListed := by
  refine ⟨takeReset_valid, fun i s => ?_⟩
  obtain ⟨t, ht, hc⟩ := exec_cases i s
  refine ⟨t, ht, ?encode, ?load, pw_eq_of_no_writer hc, ?decode⟩
  case encode => rintro d rfl; cases hc; rfl
  case load => rintro d e rfl; cases hc; rfl
  case decode =>
    rintro rfl
    exact ⟨decode_keeps_valid hc, fun ⟨_, _, _, hr⟩ => decode_correctedData_pw hc hr,
      fun ⟨_, _, _, hr⟩ => decode_correctedEcc_pw hc hr, decode_pw_of_no_correction hc⟩

/-! ## Distinct instances -/

theorem applyMove_answers (m : HostMove) (s : State) : ∃ t, applyMove m s = .next t := by
  cases m with
  | reset => exact ⟨takeReset s, rfl⟩
  | command c =>
    obtain ⟨t, ht, _⟩ := exec_cases (decodeCommand c) s
    exact ⟨t, ht⟩

theorem step_answers (s : State) : ∃ t, step s = .next t := applyMove_answers _ _

/-- The state after one step; a step that did not answer one would leave the state as it is (by `step_answers` there is
none). -/
def afterStep (s : State) : State :=
  match step s with
  | .next t => t
  | .fault _ => s
  | .refused _ => s

theorem afterStep_eq {s t : State} (h : step s = .next t) : afterStep s = t := by
  rw [afterStep, h]

/-- A step of an instance is a change of one entry of the list, made from that entry alone. -/
theorem stepInstance_eq_modify (k : Nat) (sys : System) : stepInstance k sys = sys.modify k afterStep := by
  rw [List.modify_eq_set_getElem?, stepInstance]
  cases sys[k]? with
  | none => rfl
  | some s =>
    obtain ⟨t, ht⟩ := step_answers s
    simp [ht, afterStep_eq ht]

/-- Settles O60: changes of distinct entries of a list leave each other's entry alone and commute. -/
theorem instancesAreIndependent : Obligations.InstancesAreIndependent := by
  intro sys i j hij
  simp only [stepInstance_eq_modify]
  exact ⟨sys.getElem?_modify_ne afterStep hij, sys.modify_modify_ne afterStep afterStep hij.symm⟩

end Sys2Proof.Proofs

/-!
SUPPORT. The word as memory: what a second DECODE of it finds (R126), and that a run is the fold of the step function over the
host's moves (R48).
-/

namespace Sys2Proof.Proofs

open Sys2Proof.Machine Sys2Proof.Laws

/-! ## Operations pass the queue and the counter through -/

theorem execCase_keeps_queue_and_counter {i : Instr} {s t : State} (h : ExecCase s i t) :
    t.host = s.host ∧ t.resets = s.resets := by
  cases h <;> exact ⟨rfl, rfl⟩

/-- At a state that holds the same word an operation answers the same, up to the queue and the counter found there: it reads
neither, and not the last response (R28). -/
theorem exec_of_same_word {i : Instr} {s s' t : State} (h : exec i s = .next t) (hpw : s.pw = s'.pw) :
    exec i s' = .next { t with host := s'.host, resets := s'.resets } := by
  obtain ⟨u, u', hu, hu', hpw', hrsp⟩ := sameEffect_exec i hpw
  obtain rfl : t = u := Host.Outcome.next.inj (h.symm.trans hu)
  obtain ⟨hhost, hresets⟩ := execCase_keeps_queue_and_counter (exec_inv hu')
  rw [hu', hpw', hrsp, ← hhost, ← hresets]

/-! ## A second DECODE -/

theorem decoder_of_codeWord {d : Data} {e : Ecc} (h : isCodeWord d e) :
    hammingEccDecoder d e = keepWord (.success .clean) d e := by
  apply decoder_clean
  · rw [hammingSyndrome_eq, h, computeECC_low]
    exact BitVec.xor_self
  · rw [parityError_eq, h, parity_computeECC, Bool.xor_self]

theorem codeWord_of_clean {d : Data} {e : Ecc} (h : hammingSyndrome d e = 0) (p : parityError d e = false) :
    isCodeWord d e := by
  apply ecc_ext_parity
  · rwa [computeECC_low, ← BitVec.xor_eq_zero_iff, ← hammingSyndrome_eq]
  · rw [parity_computeECC]
    exact (bne_eq_false_iff_eq.mp ((parityError_eq d e).symm.trans p)).symm

theorem exec_decode_of_codeWord {s : State} (v : s.pw.valid = true) (h : isCodeWord s.pw.data s.pw.ecc) :
    exec .decode s = .next { s with rsp := .answer .clean s.pw.data s.pw.ecc false } := by
  rw [exec_decode_valid s v, decoder_of_codeWord h, finishDecode_keep_success]

/-- A successful DECODE answers the word it leaves, and that is a code word (R24, R120). -/
theorem decode_success_word {s t : State} {st : SuccessStatus} {d : Data} {e : Ecc} {p : Bool}
    (h : ExecCase s .decode t) (hr : t.rsp = .answer st d e p) : t.pw = ⟨true, d, e⟩ ∧ isCodeWord d e := by
  cases h with
  | decodeClean v hs hp => cases hr; exact ⟨pw_of_valid _ v, codeWord_of_clean hs hp⟩
  | decodeEcc _ _ _ => cases hr; exact ⟨rfl, rfl⟩
  | decodeData _ _ _ _ => cases hr; exact ⟨rfl, rfl⟩
  | _ => cases hr

theorem decode_failure_keeps_word {s t : State} {k : ErrorKind} (h : ExecCase s .decode t) (hr : t.rsp = .failure k) :
    t.pw = s.pw := by
  apply decode_pw_of_no_correction h <;> simp [hr]

/-- Settles O53: after a success the word is a code word, on which DECODE is CLEAN; after an error it is the word the first
DECODE found, on which the second one does the same again. -/
theorem secondDecodeChangesNothing : Obligations.SecondDecodeChangesNothing := by
  refine fun s t h => ⟨fun st d e p hr => ?_, fun k hr => ?_⟩
  · obtain ⟨hpw, hcode⟩ := decode_success_word (exec_inv h) hr
    have hdecode := @exec_decode_of_codeWord t
    rw [hpw] at hdecode ⊢
    exact ⟨hcode, hdecode rfl hcode⟩
  · have hpw := decode_failure_keeps_word (exec_inv h) hr
    exact ⟨hpw, exec_of_same_word h hpw.symm⟩

/-! ## A run is the fold of the moves -/

theorem exec_withHost {i : Instr} {s t : State} (h : exec i s = .next t) (q : List HostMove) :
    exec i { s with host := q } = .next { t with host := q } := by
  obtain ⟨-, hresets⟩ := execCase_keeps_queue_and_counter (exec_inv h)
  rw [exec_of_same_word h (s' := { s with host := q }) rfl]
  simp only [hresets]

theorem applyMove_withHost {m : HostMove} {s t : State} (h : applyMove m s = .next t) (q : List HostMove) :
    applyMove m { s with host := q } = .next { t with host := q } := by
  cases m with
  | reset => cases h; rfl
  | command c => exact exec_withHost h q

/-- A step with moves waiting carries out the first of them and leaves the rest waiting. -/
theorem step_cons {m : HostMove} {s t : State} (h : applyMove m s = .next t) (q : List HostMove) :
    step { s with host := m :: q } = .next { t with host := q } :=
  applyMove_withHost h q

theorem applyMoves_cons {m : HostMove} {s t : State} (h : applyMove m s = .next t) (ms : List HostMove) :
    applyMoves (m :: ms) s = applyMoves ms t := by
  rw [applyMoves, h]

/-- Settles O59, by induction on the moves: each step of the run carries out the move at the head of the queue. -/
theorem runIsTheFoldOfTheMoves : Obligations.RunIsTheFoldOfTheMoves := by
  intro ms
  induction ms with
  | nil => exact fun s => ⟨s, rfl, fun _ => rfl⟩
  | cons m ms ih =>
    intro s
    obtain ⟨u, hu⟩ := applyMove_answers m s
    obtain ⟨t, ht, hrun⟩ := ih u
    refine ⟨t, (applyMoves_cons hu ms).trans ht, fun rest => ?_⟩
    exact (run_succ core ms.length _ _ (step_cons hu (ms ++ rest))).trans (hrun rest)

end Sys2Proof.Proofs

/-!
SUPPORT. The command ports as an encoding: that decoding inverts encoding, on the ports and on command words (R70, R73, R74),
what `op_i` alone selects (R73), the expansion of the pseudo-commands (R80), and the move a step carries out (R72).
-/

namespace Sys2Proof.Proofs

open Sys2Proof.Machine Sys2Proof.Laws

/-! ## Packing the ports into a command word -/

theorem commandOfWord_wordOfCommand (c : Command) : commandOfWord (wordOfCommand c) = c := by
  obtain ⟨op, d, e⟩ := c
  simp only [commandOfWord, wordOfCommand, Command.mk.injEq]
  refine ⟨?op, ?data, ?ecc⟩
  case op => rw [BitVec.extractLsb'_append_eq_right]
  case data =>
    rw [BitVec.extractLsb'_append_eq_of_le (Nat.le_refl 3), BitVec.extractLsb'_append_eq_right]
  case ecc =>
    rw [BitVec.extractLsb'_append_eq_of_le (by decide), BitVec.extractLsb'_append_eq_left]

theorem wordOfCommand_commandOfWord (w : BitVec 75) : wordOfCommand (commandOfWord w) = w := by
  apply BitVec.eq_of_getLsbD_eq
  intro i hi
  simp only [wordOfCommand, commandOfWord, BitVec.getLsbD_append, BitVec.getLsbD_extractLsb']
  by_cases hop : i < 3
  · simp [hop]
  by_cases hdata : i - 3 < 64
  · simp [hop, hdata, show 3 + (i - 3) = i by omega]
  · simp [hop, hdata, show i - 3 - 64 < 8 by omega, show 67 + (i - 3 - 64) = i by omega]

/-! ## Command words written as numbers -/

theorem decodeNat_toNat (w : BitVec 75) : decodeNat w.toNat = .ok (decodeCommand (commandOfWord w)) := by
  have hw : wordWellFormed w.toNat = true := decide_eq_true w.isLt
  rw [decodeNat, if_pos hw, BitVec.ofNat_toNat, BitVec.setWidth_eq]

theorem decodeNat_of_le {w : Nat} (h : 2 ^ 75 ≤ w) : decodeNat w = .error .beyondThePorts :=
  if_neg fun hw => Nat.not_lt.mpr h (of_decide_eq_true hw)

/-- A command word that decodes is the ports its wires stand for. -/
theorem eq_of_decodeTableWord {nbits w : Nat} {i : Instr} (h : decodeTableWord nbits w = some i) :
    decodeCommand (commandOfWord (BitVec.ofNat 75 (w % 2 ^ nbits))) = i := by
  rw [decodeTableWord, decodeNat] at h
  by_cases hw : wordWellFormed (w % 2 ^ nbits) = true
  · rw [if_pos hw] at h
    exact Option.some.inj h
  · rw [if_neg hw] at h
    cases h

theorem decodeTableWord_toNat (w : BitVec 75) :
    decodeTableWord 75 w.toNat = some (decodeCommand (commandOfWord w)) := by
  rw [decodeTableWord, Nat.mod_eq_of_lt w.isLt, decodeNat_toNat]

/-! ## Decoding inverts encoding -/

theorem decodeCommand_encodeCommand (i : Instr) : decodeCommand (encodeCommand i) = i := by
  cases i <;> rfl

theorem decodeTableWord_encodeWord (i : Instr) : decodeTableWord 75 (encodeWord i).toNat = some i := by
  rw [decodeTableWord_toNat, encodeWord, commandOfWord_wordOfCommand, decodeCommand_encodeCommand]

/-- Settles O26: the ports of an instruction select it, and packing them into a word is a bijection. -/
theorem decodeInvertsEncode : Obligations.DecodeInvertsEncode :=
  ⟨fun i _ => ⟨decodeCommand_encodeCommand i, decodeTableWord_encodeWord i⟩, commandOfWord_wordOfCommand,
    wordOfCommand_commandOfWord, fun _ => decodeNat_of_le⟩

/-- Settles O25: the eight words, each evaluated. -/
theorem writtenOutWordsDecode : Obligations.WrittenOutWordsDecode := by
  unfold Obligations.WrittenOutWordsDecode
  decide +kernel

/-! ## What `op_i` alone selects -/

theorem opCode_eq : ∀ op : OpCode, op = 0 ∨ op = 1 ∨ op = 2 ∨ op = 3 ∨ op = 4 ∨ op = 5 ∨ op = 6 ∨ op = 7 := by decide

theorem opCode_decodeCommand (c : Command) : (decodeCommand c).opCode = c.op := by
  obtain ⟨op, d, e⟩ := c
  obtain rfl | rfl | rfl | rfl | rfl | rfl | rfl | rfl := opCode_eq op <;> rfl

/-- Of an instruction without operands the code alone is enough to decode it. -/
theorem decodeCommand_of_format_N {i : Instr} (h : i.format = .N) (d : Data) (e : Ecc) :
    decodeCommand ⟨i.opCode, d, e⟩ = i := by
  cases i with
  | encode _ => cases h
  | load _ _ => cases h
  | _ => rfl

theorem format_eq_D_iff (i : Instr) : i.format = .D ↔ i.opCode = 1 := by cases i <;> simp [Instr.format, Instr.opCode]

theorem format_eq_W_iff (i : Instr) : i.format = .W ↔ i.opCode = 4 := by cases i <;> simp [Instr.format, Instr.opCode]

/-- Settles O27: the code of the decoded instruction is `op_i`, and its format is a matter of the code. -/
theorem unreadOperandPortsAreIgnored : Obligations.UnreadOperandPortsAreIgnored := by
  refine ⟨opCode_decodeCommand, fun c d e h => ?N, fun c e h => ?D, fun c => ?formatD, fun c => ?formatW, fun d e => ?rows⟩
  case N => rw [← decodeCommand_of_format_N h d e, opCode_decodeCommand]
  case D =>
    obtain ⟨op, d, e'⟩ := c
    rw [format_eq_D_iff, opCode_decodeCommand] at h
    obtain rfl : op = 1 := h
    rfl
  case formatD => rw [format_eq_D_iff, opCode_decodeCommand]
  case formatW => rw [format_eq_W_iff, opCode_decodeCommand]
  case rows => exact ⟨rfl, rfl, rfl, rfl, rfl, rfl, rfl, rfl⟩

/-! ## The move a step carries out -/

theorem step_of_cons {s : State} {m : HostMove} {rest : List HostMove} (h : s.host = m :: rest) :
    step s = applyMove m { s with host := rest } := by
  rw [step, nextMove_cons h]

theorem step_of_nil {s : State} (h : s.host = []) : step s = exec .idle s := by
  rw [step, nextMove_nil h]
  rfl

/-- Settles O24: by the move that `nextMove` takes off the queue. -/
theorem stepRunsTheDecodedCommand : Obligations.StepRunsTheDecodedCommand := by
  refine ⟨fun s c rest h => step_of_cons h, fun s rest h => step_of_cons h, fun s h => step_of_nil h,
    fun s nbits w i h => ?_⟩
  have hstep := step_of_cons (issueWord_host nbits w s)
  rw [applyMove, eq_of_decodeTableWord h] at hstep
  exact hstep

/-! ## The pseudo-commands -/

theorem expandPseudo_flipD {s : State} (hv : s.pw.valid = true) {b : Nat} (hb : b < 64) :
    expandPseudo (.flipD b) s = some (.load (s.pw.data ^^^ (1#64 <<< b)) s.pw.ecc) := by
  simp [expandPseudo, Pseudo.wellFormed, hv, hb]

theorem expandPseudo_flipE {s : State} (hv : s.pw.valid = true) {k : Nat} (hk : k < 8) :
    expandPseudo (.flipE k) s = some (.load s.pw.data (s.pw.ecc ^^^ (1#8 <<< k))) := by
  simp [expandPseudo, Pseudo.wellFormed, hv, hk]

theorem expandPseudo_xorW {s : State} (hv : s.pw.valid = true) (xd : Data) (xe : Ecc) :
    expandPseudo (.xorW xd xe) s = some (.load (s.pw.data ^^^ xd) (s.pw.ecc ^^^ xe)) := by
  simp [expandPseudo, Pseudo.wellFormed, hv]

theorem expandPseudo_of_invalid {s : State} (h : s.pw.valid = false) (p : Pseudo) : expandPseudo p s = none := by
  simp [expandPseudo, h]

theorem expandPseudo_of_not_wellFormed (s : State) {p : Pseudo} (h : p.wellFormed = false) :
    expandPseudo p s = none := by
  simp [expandPseudo, h]

/-- Settles O23: the guard of the expansion, and LOAD writes its operands whatever the word was. -/
theorem pseudoCommandsXorTheWord : Obligations.PseudoCommandsXorTheWord :=
  ⟨fun _ _ hv hb => ⟨expandPseudo_flipD hv hb, rfl⟩,
    fun _ _ hv hk => ⟨expandPseudo_flipE hv hk, rfl⟩,
    fun _ xd xe hv => ⟨expandPseudo_xorW hv xd xe, rfl⟩,
    fun _ p hv => expandPseudo_of_invalid hv p,
    fun s _ => ⟨fun hn => expandPseudo_of_not_wellFormed s (decide_eq_false (Nat.not_lt.mpr hn)),
      fun hn => expandPseudo_of_not_wellFormed s (decide_eq_false (Nat.not_lt.mpr hn))⟩⟩

end Sys2Proof.Proofs

/-!
SUPPORT. The Coverage Table and the code-word view: the placement of the data bits (R63), the masks (R64, R65), the agreement of
the table's two views (R66), and what a flip at a position does to the view (R69).
-/

namespace Sys2Proof.Proofs

open Sys2Proof.Machine Sys2Proof.Laws

/-! ## A single data bit -/

theorem dataBitMask_eq_twoPow (b : Fin 64) : dataBitMask b = BitVec.twoPow 64 b.val := (BitVec.twoPow_eq 64 b.val).symm

theorem parity_dataBitMask (b : Fin 64) : parity (dataBitMask b) = true := by
  rw [parity, popcount_dataBitMask]
  rfl

/-! ## The positions of the data bits, as an ascending list (R62, R63) -/

theorem dataPositions_length : dataPositions.length = 64 := by decide +kernel

theorem dataPositions_ascending : dataPositions.Pairwise fun p q => p.toNat < q.toNat := by decide +kernel

theorem isPow2_eq_false_iff (p : HamSyn) : isPow2 p = false ↔ ∀ k : Fin 7, p.toNat ≠ 2 ^ k.val := by
  rw [← Bool.not_eq_true, isPow2_iff_slot, not_exists]

theorem mem_range_posMax_iff (p : HamSyn) :
    p ∈ (List.range (Config.posMax + 1)).map (BitVec.ofNat 7) ↔ p.toNat ≤ 71 := by
  rw [List.mem_map]
  constructor
  · rintro ⟨n, hn, rfl⟩
    exact (Nat.mod_le n _).trans (Nat.le_of_lt_succ (List.mem_range.mp hn))
  · exact fun h => ⟨p.toNat, List.mem_range.mpr (Nat.lt_succ_of_le h), BitVec.ofNat_toNat 7 p⟩

theorem mem_dataPositions_iff (p : HamSyn) :
    p ∈ dataPositions ↔ 1 ≤ p.toNat ∧ p.toNat ≤ 71 ∧ ∀ k : Fin 7, p.toNat ≠ 2 ^ k.val := by
  have hzero : p ≠ 0 ↔ 1 ≤ p.toNat := by rw [Nat.one_le_iff_ne_zero, ne_eq, BitVec.toNat_eq]; rfl
  rw [dataPositions, List.mem_filter, mem_range_posMax_iff, Bool.and_eq_true, bne_iff_ne, hzero, Bool.not_eq_true',
    isPow2_eq_false_iff, and_left_comm]

theorem pos_eq_getElem (b : Fin 64) : pos b = dataPositions[b.val]'(by rw [dataPositions_length]; exact b.isLt) :=
  List.getD_eq_getElem _ _ _

theorem pos_mem (b : Fin 64) : pos b ∈ dataPositions := by
  rw [pos_eq_getElem]
  exact List.getElem_mem _

theorem exists_pos_of_mem {p : HamSyn} (h : p ∈ dataPositions) : ∃ b : Fin 64, pos b = p := by
  obtain ⟨i, hi, rfl⟩ := List.mem_iff_getElem.mp h
  exact ⟨⟨i, dataPositions_length ▸ hi⟩, pos_eq_getElem _⟩

theorem pos_strictMono {a b : Fin 64} (h : a < b) : (pos a).toNat < (pos b).toNat := by
  rw [pos_eq_getElem, pos_eq_getElem]
  exact List.pairwise_iff_getElem.mp dataPositions_ascending _ _ _ _ h

theorem hostedBit_pos : ∀ b : Fin 64, hostedBit (pos b).toNat = b.val := by decide +kernel

/-- The check bits of a single data bit: its position, and the parity that completes it to an even count (R63). -/
theorem computeECC_dataBitMask (b : Fin 64) :
    computeECC (dataBitMask b) = BitVec.ofBool (!parity (pos b)) ++ pos b := by
  rw [computeECC, overallBit_eq, hammingBits_single, parity_dataBitMask, Bool.true_xor]

theorem exists_pos_eq {n : Nat} (h1 : 1 ≤ n) (h71 : n ≤ 71) (hslot : ∀ k : Fin 7, n ≠ 2 ^ k.val) :
    ∃ b : Fin 64, (pos b).toNat = n := by
  have hn : (BitVec.ofNat 7 n).toNat = n := Nat.mod_eq_of_lt (by omega)
  obtain ⟨b, hb⟩ := exists_pos_of_mem ((mem_dataPositions_iff (BitVec.ofNat 7 n)).mpr
    (by rw [hn]; exact ⟨h1, h71, hslot⟩))
  exact ⟨b, by rw [hb, hn]⟩

/-- Settles O28: the positions are the ascending list of R63, and the listed check bits are made from them. -/
theorem dataBitsTakeAscendingPositions : Obligations.DataBitsTakeAscendingPositions := by
  refine ⟨fun _ _ => pos_strictMono, fun b => (mem_dataPositions_iff _).mp (pos_mem b),
    fun p h1 => exists_pos_eq h1 (Nat.le_of_lt_succ p.isLt), hostedBit_pos, ?_⟩
  exact (List.map_congr_left fun b _ => computeECC_dataBitMask b).trans (by decide +kernel)

/-! ## The masks (R64, R65) and the two views (R66) -/

/-- The Hamming bits of a single data bit are the masks' bits at it. -/
theorem hammingBit_dataBitMask (k : Fin 7) (b : Fin 64) :
    hammingBit (dataBitMask b) k = (coverageMask k).getLsbD b.val := by
  have hodd := parity_dataBitMask b
  rw [dataBitMask_eq_twoPow] at hodd
  rw [hammingBit, BitVec.and_comm, dataBitMask_eq_twoPow, BitVec.and_twoPow]
  cases (coverageMask k).getLsbD b.val
  · exact parity_zero
  · exact hodd

theorem getLsbD_coverageMask (k : Fin 7) (b : Fin 64) : (coverageMask k).getLsbD b.val = (pos b).getLsbD k.val := by
  rw [← hammingBit_dataBitMask, ← getLsbD_hammingBits, hammingBits_single]

/-- Settles O29: a data bit's position is the pattern of parity bits it takes part in. -/
theorem masksFollowTheInterleavingRule : Obligations.MasksFollowTheInterleavingRule :=
  ⟨getLsbD_coverageMask, rfl, by decide +kernel⟩

theorem two_set_bits : ∀ p : HamSyn, 2 ≤ popcount p →
    ∃ j k : Fin 7, j ≠ k ∧ p.getLsbD j.val = true ∧ p.getLsbD k.val = true := by decide +kernel

theorem exists_lookup {p : HamSyn} (h1 : 1 ≤ p.toNat) (h71 : p.toNat ≤ 71) (hslot : ∀ k : Fin 7, p.toNat ≠ 2 ^ k.val) :
    ∃ b, positionToDataBit p = some b := by
  obtain ⟨b, rfl⟩ := exists_pos_of_mem ((mem_dataPositions_iff p).mpr ⟨h1, h71, hslot⟩)
  exact ⟨b, positionToDataBit_pos b⟩

/-- Settles O31: the table inverts `pos`, and the masks' bits at a data bit are the bits of its position. -/
theorem coverageTableViewsAgree : Obligations.CoverageTableViewsAgree := by
  refine ⟨fun p h1 h71 hslot => ?hosted, fun b => ⟨pos b, positionToDataBit_pos b, fun q => hosted_eq_pos q b⟩,
    fun a b h => ?distinct, fun b => ?twoBits⟩
  case hosted =>
    obtain ⟨b, hb⟩ := exists_lookup h1 h71 hslot
    exact ⟨b, hb, fun k => by rw [getLsbD_coverageMask, ← hosted_eq_pos p b hb]⟩
  case distinct =>
    apply pos_injective
    apply BitVec.eq_of_getLsbD_eq
    intro k hk
    simpa only [getLsbD_coverageMask] using h ⟨k, hk⟩
  case twoBits =>
    simpa only [getLsbD_coverageMask] using two_set_bits (pos b) (two_le_popcount_pos b)

/-! ## The code-word view (R69) -/

theorem and_twoPow_bne_zero {w : Nat} (v : BitVec w) {i : Nat} (hi : i < w) :
    (v &&& BitVec.twoPow w i != 0#w) = v.getLsbD i := by
  have hne : BitVec.twoPow w i ≠ 0#w := fun h0 => by
    have := congrArg (BitVec.getLsbD · i) h0
    simp [hi] at this
  rw [BitVec.and_twoPow]
  cases v.getLsbD i <;> simp [hne]

/-- The position of a check bit: `2^k` for the Hamming bit `k`, and 0 for bit 7 (R69). -/
def eccPosition (k : Fin 8) : Nat := 2 ^ k.val % 128

theorem eccPosition_castSucc : ∀ k : Fin 7, eccPosition k.castSucc = 2 ^ k.val := by decide

theorem eccPosition_injective : ∀ k k' : Fin 8, eccPosition k = eccPosition k' → k = k' := by decide

theorem pos_ne_eccPosition : ∀ (b : Fin 64) (k : Fin 8), (pos b).toNat ≠ eccPosition k := by decide +kernel

/-- Every position names a data bit or a check bit. -/
theorem position_cases (p : Fin 72) : (∃ b : Fin 64, p.val = (pos b).toNat) ∨ ∃ k : Fin 8, p.val = eccPosition k := by
  by_cases h0 : p.val = 0
  · exact .inr ⟨7, h0⟩
  by_cases hslot : ∃ k : Fin 7, p.val = 2 ^ k.val
  · obtain ⟨k, hk⟩ := hslot
    exact .inr ⟨k.castSucc, hk.trans (eccPosition_castSucc k).symm⟩
  · obtain ⟨b, hb⟩ := exists_pos_eq (Nat.one_le_iff_ne_zero.mpr h0) (Nat.le_of_lt_succ p.isLt) (not_exists.mp hslot)
    exact .inl ⟨b, hb.symm⟩

theorem flipPatterns_eccPosition : ∀ (k : Fin 8) (p : Fin 72), p.val = eccPosition k →
    flipDataPattern p = 0 ∧ flipEccPattern p = BitVec.twoPow 8 k.val := by decide +kernel

theorem flipPatterns_pos {b : Fin 64} {p : Fin 72} (h : p.val = (pos b).toNat) :
    flipDataPattern p = BitVec.twoPow 64 b.val ∧ flipEccPattern p = 0 := by
  have hp : BitVec.ofNat 7 p.val = pos b := by rw [h, BitVec.ofNat_toNat, BitVec.setWidth_eq]
  obtain ⟨h0, hslot⟩ := hosted_not_slot _ _ (positionToDataBit_pos b)
  constructor
  · rw [flipDataPattern, hp, positionToDataBit_pos, ← dataBitMask_eq_twoPow]
  · have hne : p.val ≠ 0 := fun hz => h0 (by rw [← hp, hz]; rfl)
    rw [flipEccPattern, if_neg hne, hp, hslot]
    rfl

theorem codeWordBit_of_pos {p : Fin 72} {b : Fin 64} (h : p.val = (pos b).toNat) (d : Data) (e : Ecc) :
    codeWordBit d e p = d.getLsbD b.val := by
  obtain ⟨hd, he⟩ := flipPatterns_pos h
  rw [codeWordBit, hd, he]
  simp [and_twoPow_bne_zero d b.isLt]

theorem codeWordBit_of_eccPosition {p : Fin 72} {k : Fin 8} (h : p.val = eccPosition k) (d : Data) (e : Ecc) :
    codeWordBit d e p = e.getLsbD k.val := by
  obtain ⟨hd, he⟩ := flipPatterns_eccPosition k p h
  rw [codeWordBit, hd, he]
  simp [and_twoPow_bne_zero e k.isLt]

/-- The view is linear: each of its bits is one bit of the word. -/
theorem codeWordBit_xor (d d' : Data) (e e' : Ecc) (q : Fin 72) :
    codeWordBit (d ^^^ d') (e ^^^ e') q = (codeWordBit d e q ^^ codeWordBit d' e' q) := by
  obtain ⟨b, h⟩ | ⟨k, h⟩ := position_cases q
  · simp only [codeWordBit_of_pos h, BitVec.getLsbD_xor]
  · simp only [codeWordBit_of_eccPosition h, BitVec.getLsbD_xor]

/-- The view of a flip's own pattern: the positions name distinct bits. -/
theorem codeWordBit_flipPatterns (p q : Fin 72) :
    codeWordBit (flipDataPattern p) (flipEccPattern p) q = decide (p = q) := by
  obtain ⟨b, hq⟩ | ⟨k, hq⟩ := position_cases q <;> obtain ⟨a, hp⟩ | ⟨j, hp⟩ := position_cases p
  case inl.inl =>
    have hiff : p = q ↔ a = b := by
      rw [Fin.ext_iff, hp, hq, BitVec.toNat_inj]
      exact ⟨pos_injective, congrArg pos⟩
    rw [codeWordBit_of_pos hq, (flipPatterns_pos hp).1]
    simp [hiff, Fin.ext_iff, eq_comm]
  case inl.inr =>
    have hne : p ≠ q := fun h => pos_ne_eccPosition b j (by rw [← hq, ← hp, h])
    rw [codeWordBit_of_pos hq, (flipPatterns_eccPosition j p hp).1]
    simp [hne]
  case inr.inl =>
    have hne : p ≠ q := fun h => pos_ne_eccPosition a k (by rw [← hp, ← hq, h])
    rw [codeWordBit_of_eccPosition hq, (flipPatterns_pos hp).2]
    simp [hne]
  case inr.inr =>
    have hiff : p = q ↔ j = k := by
      rw [Fin.ext_iff, hp, hq]
      exact ⟨eccPosition_injective j k, congrArg eccPosition⟩
    rw [codeWordBit_of_eccPosition hq, (flipPatterns_eccPosition j p hp).2]
    simp [hiff, Fin.ext_iff, eq_comm]

/-- Settles O32: each position names one bit, so the view is linear in the word, and a flip's own view is its position. -/
theorem flipInvertsOneBitOfTheView : Obligations.FlipInvertsOneBitOfTheView :=
  ⟨codeWordBit_of_eccPosition (k := 7) rfl,
    fun d e k _ h => codeWordBit_of_eccPosition (h.trans (eccPosition_castSucc k).symm) d e,
    fun d e _ _ h => codeWordBit_of_pos h d e,
    fun d e p q => by rw [codeWordBit_xor, codeWordBit_flipPatterns]⟩

end Sys2Proof.Proofs

/-!
SUPPORT. The response of a step: what each port carries (R76), and that the response is true of the word held (R166).
-/

namespace Sys2Proof.Proofs

open Sys2Proof.Machine Sys2Proof.Laws

/-! ## The ports of a response (R76) -/

theorem ports_of_answer {r : Response} {st : SuccessStatus} {d : Data} {e : Ecc} {p : Bool} (h : r = .answer st d e p) :
    rspValid r = true ∧ rspStatus r = some (successCode st) ∧ rspData r = some d ∧ rspEcc r = some e ∧
      rspPerr r = some p := by
  subst h
  exact ⟨rfl, rfl, rfl, rfl, rfl⟩

theorem ports_of_failure {r : Response} {k : ErrorKind} (h : r = .failure k) :
    rspValid r = true ∧ rspStatus r = some (errorCode k) ∧ rspData r = none ∧ rspEcc r = none ∧ rspPerr r = none := by
  subst h
  exact ⟨rfl, rfl, rfl, rfl, rfl⟩

theorem successCode_eq (st : SuccessStatus) : successCode st = 0 ∨ successCode st = 1 ∨ successCode st = 2 := by
  cases st <;> decide

/-- An answer to any command but SYNDROME is the word the step leaves, with no parity error (R76, R120). -/
theorem word_of_answer {i : Instr} {s t : State} {st : SuccessStatus} {d : Data} {e : Ecc} {p : Bool}
    (h : ExecCase s i t) (hi : i ≠ .syndrome) (hr : t.rsp = .answer st d e p) : t.pw = ⟨true, d, e⟩ ∧ p = false := by
  cases h with
  | syndrome _ => exact absurd rfl hi
  | encode _ => cases hr; exact ⟨rfl, rfl⟩
  | load _ _ => cases hr; exact ⟨rfl, rfl⟩
  | decodeClean v _ _ => cases hr; exact ⟨pw_of_valid _ v, rfl⟩
  | decodeEcc _ _ _ => cases hr; exact ⟨rfl, rfl⟩
  | decodeData _ _ _ _ => cases hr; exact ⟨rfl, rfl⟩
  | _ => cases hr

/-- On a word DECODE answers, or responds one of its own two errors (R110). -/
theorem decode_rsp_of_valid {s t : State} (h : ExecCase s .decode t) (v : s.pw.valid = true) :
    (∃ st d e p, t.rsp = .answer st d e p) ∨ t.rsp = .failure .uncorrectable ∨
      t.rsp = .failure (.invariant .table) := by
  cases h with
  | decodeNoWord v' => exact absurd (v.symm.trans v') Bool.noConfusion
  | decodeEven _ _ _ => exact .inr (.inl rfl)
  | decodeBeyond _ _ _ => exact .inr (.inr rfl)
  | _ => exact .inl ⟨_, _, _, _, rfl⟩

/-- The row of DECODE on a word in the binding of R76. -/
theorem decode_ports_of_valid {s t : State} (h : ExecCase s .decode t) (v : s.pw.valid = true) :
    rspValid t.rsp = true ∧
    (((rspStatus t.rsp = some 0 ∨ rspStatus t.rsp = some 1 ∨ rspStatus t.rsp = some 2) ∧ rspData t.rsp = some t.pw.data ∧
        rspEcc t.rsp = some t.pw.ecc ∧ rspPerr t.rsp = some false) ∨
      ((rspStatus t.rsp = some 3 ∨ rspStatus t.rsp = some 4) ∧ rspData t.rsp = none ∧ rspEcc t.rsp = none ∧
        rspPerr t.rsp = none)) := by
  obtain ⟨st, d, e, p, hr⟩ | hr | hr := decode_rsp_of_valid h v
  · obtain ⟨hpw, rfl⟩ := word_of_answer h Instr.noConfusion hr
    obtain ⟨hvalid, hstatus, hports⟩ := ports_of_answer hr
    refine ⟨hvalid, .inl ⟨?_, by simpa only [hpw] using hports⟩⟩
    simpa only [hstatus, Option.some.injEq] using successCode_eq st
  · obtain ⟨hvalid, hstatus, hports⟩ := ports_of_failure hr
    exact ⟨hvalid, .inr ⟨.inl hstatus, hports⟩⟩
  · obtain ⟨hvalid, hstatus, hports⟩ := ports_of_failure hr
    exact ⟨hvalid, .inr ⟨.inr hstatus, hports⟩⟩

/-- Settles O19: the ports of the response that each operation leaves. -/
theorem responsePortsFollowTheBinding : Obligations.ResponsePortsFollowTheBinding := by
  intro s
  refine ⟨⟨_, rfl, rfl, rfl, rfl, rfl, rfl⟩, fun d => ⟨_, rfl, ports_of_answer rfl⟩,
    fun d e => ⟨_, rfl, ports_of_answer rfl⟩, ?syndrome, ?decode, ?reserved⟩
  case syndrome =>
    cases v : s.pw.valid
    · exact ⟨_, exec_syndrome_invalid s v, rfl, nofun, fun _ => (ports_of_failure rfl).2⟩
    · exact ⟨_, exec_syndrome_valid s v, rfl, fun _ => (ports_of_answer rfl).2, nofun⟩
  case decode =>
    cases v : s.pw.valid
    · exact ⟨_, exec_decode_invalid s v, rfl, nofun, fun _ => (ports_of_failure rfl).2⟩
    · obtain ⟨t, ht, hc⟩ := exec_cases .decode s
      obtain ⟨hvalid, hports⟩ := decode_ports_of_valid hc v
      exact ⟨t, ht, hvalid, fun _ => hports, nofun⟩
  case reserved => rintro i (rfl | rfl | rfl) <;> exact ⟨_, rfl, ports_of_failure rfl⟩

/-! ## The response is true of the word held -/

/-- Whatever an operation finds, its response is true of the word it leaves (R24, R76, R106, R140 to R143). -/
theorem responseTrue_of_execCase {i : Instr} {s t : State} (h : ExecCase s i t) : ResponseTrueOfWord t := by
  cases h with
  | encode d => exact .inl ⟨rfl, rfl⟩
  | load d e => exact .inl ⟨rfl, rfl⟩
  | syndrome v => exact .inr ⟨v, rfl, rfl, rfl⟩
  | syndromeNoWord v => exact v
  | decodeNoWord v => exact v
  | decodeClean v _ _ => exact .inl ⟨pw_of_valid _ v, rfl⟩
  | decodeEcc _ _ _ => exact ⟨rfl, rfl, rfl⟩
  | decodeData _ _ _ _ => exact ⟨rfl, rfl, rfl⟩
  | decodeBeyond v h p => exact ⟨v, h, p⟩
  | decodeEven v h p => exact ⟨v, h, p⟩
  | _ => exact trivial

theorem responseTrue_of_applyMove {m : HostMove} {s t : State} (h : applyMove m s = .next t) : ResponseTrueOfWord t := by
  cases m with
  | reset => cases h; exact trivial
  | command c => exact responseTrue_of_execCase (exec_inv h)

theorem decodeCommand_ne_syndrome {c : Command} (h : c.op = 1 ∨ c.op = 2 ∨ c.op = 4) : decodeCommand c ≠ .syndrome := by
  intro hs
  have hop : c.op = 3 := by rw [← opCode_decodeCommand, hs]; rfl
  rw [hop] at h
  exact absurd h (by decide)

/-- Settles O56: a step is one move; an operation's response is true of what it leaves, and only SYNDROME answers anything
but the word. -/
theorem everyStepLeavesATrueResponse : Obligations.EveryStepLeavesATrueResponse := by
  intro s
  obtain ⟨t, ht⟩ := step_answers s
  refine ⟨t, ht, responseTrue_of_applyMove ht, fun c rest hs hop st d e p hr => ?_⟩
  rw [step_of_cons hs] at ht
  exact word_of_answer (exec_inv ht) (decodeCommand_ne_syndrome hop) hr

end Sys2Proof.Proofs

/-!
SUPPORT. The encoder: the parities that `computeECC` sets (R90), its form as an XOR over the set data bits (R92), and the code
words that ENCODE and a successful DECODE leave (R24, R91).
-/

namespace Sys2Proof.Proofs

open Sys2Proof.Machine Sys2Proof.Laws

/-! ## The parities of `computeECC` (R90) -/

theorem parity_iff_odd {w : Nat} (v : BitVec w) : parity v = true ↔ popcount v % 2 = 1 := beq_iff_eq

theorem overallBit_iff_odd (d : Data) : overallBit d = true ↔ (popcount d + popcount (hammingBits d)) % 2 = 1 := beq_iff_eq

/-- Settles O35: bit `k` is the parity of what its mask selects, and bit 7 that of the data and the seven bits together. -/
theorem computeEccSetsEachParity : Obligations.ComputeEccSetsEachParity := by
  refine fun d => ⟨fun k => ?_, ?_⟩
  · rw [getLsbD_computeECC_low]
    exact parity_iff_odd _
  · rw [getLsbD_computeECC_seven, computeECC_low]
    exact overallBit_iff_odd d

/-- Settles O36: the overall bit makes the count even; the three values are computed. -/
theorem encodedWordsHaveAnEvenBitCount : Obligations.EncodedWordsHaveAnEvenBitCount :=
  ⟨by decide +kernel, by decide +kernel, by decide +kernel, codeWord_weight_even⟩

/-! ## Linear functions of the data are XORs over the set bits (R92) -/

/-- The XOR of `f b` over the bits `b` of the list that are set in `d`, in the form of R92. -/
abbrev xorOverSetBits {w : Nat} (f : Fin 64 → BitVec w) (d : Data) (bs : List (Fin 64)) : BitVec w :=
  bs.foldr (fun b x => (if d.getLsbD b.val then f b else 0) ^^^ x) 0

theorem map_zero_of_xor {v w : Nat} {f : BitVec v → BitVec w} (hf : ∀ a b, f (a ^^^ b) = f a ^^^ f b) : f 0 = 0 := by
  have h := hf 0 0
  rwa [BitVec.xor_self, BitVec.xor_self] at h

theorem map_xorOverSetBits {w : Nat} {f : Data → BitVec w} (hf : ∀ a b, f (a ^^^ b) = f a ^^^ f b)
    (g : Fin 64 → Data) (d : Data) (bs : List (Fin 64)) :
    f (xorOverSetBits g d bs) = xorOverSetBits (fun b => f (g b)) d bs := by
  induction bs with
  | nil => exact map_zero_of_xor hf
  | cons b bs ih =>
    rw [xorOverSetBits, List.foldr_cons, hf, ih, apply_ite f, map_zero_of_xor hf]
    rfl

theorem getLsbD_dataBitMask (b i : Fin 64) : (dataBitMask b).getLsbD i.val = decide (b = i) := by
  rw [dataBitMask_eq_twoPow, BitVec.getLsbD_twoPow]
  simp [Fin.ext_iff]

/-- The mask of one bit of `d`, if it is set, is `d` at that bit and nothing beside it. -/
theorem getLsbD_dataBitMask_if_set (d : Data) (b i : Fin 64) :
    (if d.getLsbD b.val then dataBitMask b else 0).getLsbD i.val = (d.getLsbD i.val && decide (b = i)) := by
  rw [apply_ite (BitVec.getLsbD · i.val), getLsbD_dataBitMask]
  by_cases hbi : b = i
  · subst hbi
    cases d.getLsbD b.val <;> simp
  · simp [hbi]

/-- The masks of the listed set bits make up `d` on the list, and nothing beside it. -/
theorem getLsbD_xorOverSetBits_dataBitMask (d : Data) {bs : List (Fin 64)} (hbs : bs.Nodup) (i : Fin 64) :
    (xorOverSetBits dataBitMask d bs).getLsbD i.val = (d.getLsbD i.val && decide (i ∈ bs)) := by
  induction bs with
  | nil => simp
  | cons b bs ih =>
    obtain ⟨hb, hbs⟩ := List.nodup_cons.mp hbs
    rw [xorOverSetBits, List.foldr_cons, BitVec.getLsbD_xor, getLsbD_dataBitMask_if_set, ih hbs]
    by_cases hbi : b = i
    · subst hbi
      simp [hb]
    · simp [hbi, Ne.symm hbi]

theorem xorOverSetBits_dataBitMask (d : Data) : xorOverSetBits dataBitMask d (List.finRange 64) = d := by
  apply BitVec.eq_of_getLsbD_eq
  intro i hi
  simpa using getLsbD_xorOverSetBits_dataBitMask d (List.nodup_finRange 64) ⟨i, hi⟩

/-- A linear function of the data is the XOR of its values on the single bits that are set. -/
theorem eq_xorOverSetBits {w : Nat} {f : Data → BitVec w} (hf : ∀ a b, f (a ^^^ b) = f a ^^^ f b) (d : Data) :
    f d = xorOverSetBits (fun b => f (dataBitMask b)) d (List.finRange 64) := by
  rw [← map_xorOverSetBits hf, xorOverSetBits_dataBitMask]

theorem hammingBits_eq_xor_pos (d : Data) : hammingBits d = xorOverSetBits pos d (List.finRange 64) := by
  rw [eq_xorOverSetBits hammingBits_xor, funext hammingBits_single]

/-- Settles O37: `computeECC` and its low seven bits are linear, so their values on single bits give them everywhere. -/
theorem computeEccIsLinear : Obligations.ComputeEccIsLinear := by
  refine ⟨map_zero_of_xor computeECC_xor, computeECC_xor, fun b => ⟨?low, ?overall⟩,
    eq_xorOverSetBits computeECC_xor, fun d => (computeECC_low d).trans (hammingBits_eq_xor_pos d)⟩
  case low => exact (computeECC_low (dataBitMask b)).trans (hammingBits_single b)
  case overall =>
    rw [← dataBitMask, getLsbD_computeECC_seven, overallBit_iff_odd, hammingBits_single, popcount_dataBitMask]

/-! ## ENCODE, and the code words the register holds -/

/-- Settles O6: the storage primitives overwrite each field of the word. -/
theorem encodeWritesOperandAndItsCheckBits : Obligations.EncodeWritesOperandAndItsCheckBits :=
  ⟨fun _ _ => rfl, fun _ _ => rfl⟩

/-- A DECODE that condemns its word found no code word: on one it answers CLEAN, and without a word it responds `NO_WORD`. -/
theorem not_codeWord_of_decode_error {s t : State} (h : exec .decode s = .next t)
    (hr : t.rsp = .failure .uncorrectable ∨ t.rsp = .failure (.invariant .table)) :
    ¬ isCodeWord s.pw.data s.pw.ecc := by
  intro hcode
  cases v : s.pw.valid
  · rw [exec_decode_invalid s v] at h
    cases h
    simp at hr
  · rw [exec_decode_of_codeWord v hcode] at h
    cases h
    simp at hr

/-- Settles O48: ENCODE and a successful DECODE leave a code word, an error leaves the word it condemned, and LOAD writes
whatever it is given, as the check bits 1 for the data 0. -/
theorem codeWordAfterEncodeAndSuccessfulDecode : Obligations.CodeWordAfterEncodeAndSuccessfulDecode := by
  refine ⟨fun d s t h => ?encode, fun s t st d e p h hr => ?success, ⟨0, 1, fun s => ⟨_, rfl, ?load⟩⟩,
    fun s t h hr => ?error⟩
  case encode => cases h; rfl
  case success =>
    obtain ⟨hpw, hcode⟩ := decode_success_word (exec_inv h) hr
    rwa [hpw]
  case load =>
    change (1 : Ecc) ≠ computeECC 0
    decide +kernel
  case error =>
    have hpw : t.pw = s.pw := hr.elim (decode_failure_keeps_word (exec_inv h)) (decode_failure_keeps_word (exec_inv h))
    exact ⟨hpw, hpw ▸ not_codeWord_of_decode_error h hr⟩

end Sys2Proof.Proofs

/-!
SUPPORT. The syndrome calculator: the parity error as a count over the stored bits (R102), its relation to bit 7 of the syndrome
(R103), the syndrome law for flipped bits (R104), and what the block and the operation SYNDROME report (R105, R106).
-/

namespace Sys2Proof.Proofs

open Sys2Proof.Machine Sys2Proof.Laws

/-! ## The parity error (R102) -/

theorem parityError_iff_odd (d : Data) (e : Ecc) : parityError d e = true ↔ popcount (cw72 d e) % 2 = 1 := by
  rw [popcount_cw72]
  exact beq_iff_eq

/-- Settles O34: the count of the 72 stored bits is the sum of the counts of the two fields. -/
theorem parityErrorIsParityOfAllStoredBits : Obligations.ParityErrorIsParityOfAllStoredBits :=
  fun d e => ⟨parityError_eq d e, parityError_iff_odd d e, popcount_cw72 d e, popcount_cw72 d e ▸ popcount_le (cw72 d e)⟩

/-! ## The block and the operation (R105, R106) -/

theorem getLsbD_hammingSyndrome (d : Data) (e : Ecc) (k : Fin 7) :
    (hammingSyndrome d e).getLsbD k.val = (e.getLsbD k.val ^^ (computeECC d).getLsbD k.val) := by
  simp [hammingSyndrome, syndromeOf, hammingEccEncoder]

/-- Settles O38: the block recomputes the check bits from the data, and its other outputs compare the stored ones with them. -/
theorem syndromeCalculatorOutputs : Obligations.SyndromeCalculatorOutputs :=
  fun d e => ⟨rfl, rfl, getLsbD_hammingSyndrome d e, parityError_eq d e⟩

/-- Settles O9: SYNDROME on a word answers the outputs of the block, and no state but the response changes. -/
theorem syndromeReportsAndChangesNothing : Obligations.SyndromeReportsAndChangesNothing := by
  refine ⟨fun _ _ => rfl, fun s => ⟨fun v => ?word, exec_syndrome_invalid s⟩⟩
  case word =>
    rw [exec_syndrome_valid s v, parityError_eq]
    rfl

/-! ## Bit 7 of the syndrome against the parity error (R103) -/

theorem getLsbD_seven_eq_parity (x : Ecc) : x.getLsbD 7 = (parity x ^^ parity (x.extractLsb' 0 7)) := by
  rw [← odd_sum, popcount_ecc]
  cases x.getLsbD 7 <;> simp <;> omega

theorem syndromeOf_seven (d : Data) (e : Ecc) :
    (syndromeOf d e).getLsbD 7 = (parityError d e ^^ parity (hammingSyndrome d e)) := by
  rw [getLsbD_seven_eq_parity, parity_syndromeOf, syndromeOf_low]

theorem parity_eq_false_iff {w : Nat} (v : BitVec w) : parity v = false ↔ popcount v % 2 = 0 := by
  rw [← Bool.not_eq_true, parity_iff_odd, Nat.mod_two_not_eq_one]

theorem syndromeOf_eq_zero_iff_codeWord (d : Data) (e : Ecc) : syndromeOf d e = 0 ↔ isCodeWord d e :=
  BitVec.xor_eq_zero_iff

/-- The Hamming syndrome and the parity error leave no bit of the syndrome open. -/
theorem syndromeOf_eq_zero_iff (d : Data) (e : Ecc) :
    syndromeOf d e = 0 ↔ hammingSyndrome d e = 0 ∧ parityError d e = false := by
  constructor
  · intro h
    rw [← syndromeOf_low, ← parity_syndromeOf, h]
    exact ⟨rfl, parity_zero⟩
  · exact fun ⟨hsyn, hpar⟩ => (syndromeOf_eq_zero_iff_codeWord d e).mpr (codeWord_of_clean hsyn hpar)

/-- Settles O39: the parity of the whole syndrome is the parity error, and bit 7 is what the low seven bits leave of it. -/
theorem syndromeBitSevenIsNotTheParityError : Obligations.SyndromeBitSevenIsNotTheParityError := by
  refine fun d e => ⟨syndromeOf_seven d e, ?agree, syndromeOf_eq_zero_iff d e, syndromeOf_eq_zero_iff_codeWord d e⟩
  case agree =>
    rw [syndromeOf_seven, ← parity_eq_false_iff]
    cases parityError d e <;> simp

/-! ## The syndrome law (R104) -/

/-- The syndrome is linear in the 72 bits, as `computeECC` is in the data. -/
theorem syndromeOf_xor (d d' : Data) (e e' : Ecc) :
    syndromeOf (d ^^^ d') (e ^^^ e') = syndromeOf d e ^^^ syndromeOf d' e' := by
  simp only [syndromeOf, hammingEccEncoder, computeECC_xor]
  ac_rfl

theorem hammingSyndrome_xor (d d' : Data) (e e' : Ecc) :
    hammingSyndrome (d ^^^ d') (e ^^^ e') = hammingSyndrome d e ^^^ hammingSyndrome d' e' := by
  rw [hammingSyndrome, syndromeOf_xor, low_xor, syndromeOf_low, syndromeOf_low]

theorem parityError_xor (d d' : Data) (e e' : Ecc) :
    parityError (d ^^^ d') (e ^^^ e') = (parityError d e ^^ parityError d' e') := by
  rw [← parity_syndromeOf, syndromeOf_xor, parity_xor, parity_syndromeOf, parity_syndromeOf]

/-- A code word adds nothing to the syndrome: a flipped one has the syndrome of the pattern of its flips. -/
theorem syndrome_of_flipped_codeWord {d : Data} {e : Ecc} (h : isCodeWord d e) (xd : Data) (xe : Ecc) :
    hammingSyndrome (d ^^^ xd) (e ^^^ xe) = hammingSyndrome xd xe ∧
      parityError (d ^^^ xd) (e ^^^ xe) = parityError xd xe := by
  obtain ⟨hsyn, hpar⟩ := (syndromeOf_eq_zero_iff d e).mp ((syndromeOf_eq_zero_iff_codeWord d e).mpr h)
  rw [hammingSyndrome_xor, parityError_xor, hsyn, hpar]
  exact ⟨BitVec.zero_xor, Bool.false_xor _⟩

/-- One flip has its position as Hamming syndrome, and a parity error. -/
theorem syndrome_of_one_flip : ∀ p : Fin 72,
    hammingSyndrome (flipDataPattern p) (flipEccPattern p) = BitVec.ofNat 7 p.val ∧
      parityError (flipDataPattern p) (flipEccPattern p) = true := by decide +kernel

theorem hammingSyndrome_flips (ps : List (Fin 72)) : hammingSyndrome (flipsData ps) (flipsEcc ps) = xorPositions ps := by
  induction ps with
  | nil => decide +kernel
  | cons p ps ih =>
    calc hammingSyndrome (flipsData (p :: ps)) (flipsEcc (p :: ps))
      _ = hammingSyndrome (flipDataPattern p) (flipEccPattern p) ^^^ hammingSyndrome (flipsData ps) (flipsEcc ps) :=
        hammingSyndrome_xor _ _ _ _
      _ = BitVec.ofNat 7 p.val ^^^ xorPositions ps := by rw [(syndrome_of_one_flip p).1, ih]

theorem parityError_flips (ps : List (Fin 72)) :
    parityError (flipsData ps) (flipsEcc ps) = true ↔ ps.length % 2 = 1 := by
  induction ps with
  | nil => decide +kernel
  | cons p ps ih =>
    have hcons : parityError (flipsData (p :: ps)) (flipsEcc (p :: ps)) = !parityError (flipsData ps) (flipsEcc ps) := by
      calc parityError (flipsData (p :: ps)) (flipsEcc (p :: ps))
        _ = (parityError (flipDataPattern p) (flipEccPattern p) ^^ parityError (flipsData ps) (flipsEcc ps)) :=
          parityError_xor _ _ _ _
        _ = !parityError (flipsData ps) (flipsEcc ps) := by rw [(syndrome_of_one_flip p).2, Bool.true_xor]
    rw [hcons, Bool.not_eq_true', ← Bool.not_eq_true, ih, List.length_cons]
    omega

/-- Settles O40: a flipped code word has the syndrome of the flip pattern, and the pattern's is the XOR of those of its flips. -/
theorem syndromeLawForFlippedBits : Obligations.SyndromeLawForFlippedBits := by
  refine ⟨fun d e xd xe h => ?pattern, fun d e ps h => ?positions⟩
  all_goals rw [(syndrome_of_flipped_codeWord h _ _).1, (syndrome_of_flipped_codeWord h _ _).2]
  case pattern => exact ⟨by rw [hammingSyndrome_eq, computeECC_low], parityError_eq xd xe⟩
  case positions => exact ⟨hammingSyndrome_flips ps, parityError_flips ps⟩

end Sys2Proof.Proofs

/-!
SUPPORT. The decoder: DECODE case by case (R110 to R117), the block and its other construction (R118, R125), and what a
DECODE may change and answer (R119, R120).
-/

namespace Sys2Proof.Proofs

open Sys2Proof.Machine Sys2Proof.Laws

/-! ## DECODE from what the block answers -/

theorem exec_decode_of_keep_success {s : State} {st : SuccessStatus} {d : Data} {e : Ecc} (v : s.pw.valid = true)
    (h : hammingEccDecoder s.pw.data s.pw.ecc = keepWord (.success st) d e) :
    exec .decode s = .next { s with rsp := .answer st d e false } := by
  rw [exec_decode_valid s v, h, finishDecode_keep_success]

theorem exec_decode_of_keep_error {s : State} {k : ErrorKind} {d : Data} {e : Ecc} (v : s.pw.valid = true)
    (h : hammingEccDecoder s.pw.data s.pw.ecc = keepWord (.error k) d e) :
    exec .decode s = .next { s with rsp := .failure k } := by
  rw [exec_decode_valid s v, h, finishDecode_keep_error]

theorem exec_decode_of_rewrite {s : State} {st : SuccessStatus} {d : Data} (v : s.pw.valid = true)
    (h : hammingEccDecoder s.pw.data s.pw.ecc = rewriteWord st d) :
    exec .decode s = .next { s with pw := ⟨true, d, computeECC d⟩, rsp := .answer st d (computeECC d) false } := by
  rw [exec_decode_valid s v, h, finishDecode_rewrite, v]

/-! ## The syndrome from its low bits and its parity -/

theorem eq_syndromeOf {d : Data} {e x : Ecc} (hlow : x.extractLsb' 0 7 = hammingSyndrome d e)
    (hpar : parity x = parityError d e) : syndromeOf d e = x :=
  (ecc_ext_parity hlow (hpar.trans (parity_syndromeOf d e).symm)).symm

theorem computeECC_eq_xor_syndromeOf (d : Data) (e : Ecc) : computeECC d = e ^^^ syndromeOf d e := by
  rw [syndromeOf, hammingEccEncoder, ← BitVec.xor_assoc, BitVec.xor_self, BitVec.zero_xor]

theorem syndromeOf_of_overall_error {d : Data} {e : Ecc} (h : hammingSyndrome d e = 0) (p : parityError d e = true) :
    syndromeOf d e = 0x80 :=
  eq_syndromeOf (h ▸ rfl) (p ▸ rfl)

theorem extendedSlot_low_and_parity : ∀ h : HamSyn, isPow2 h = true →
    (h.setWidth 8).extractLsb' 0 7 = h ∧ parity (h.setWidth 8) = true := by decide +kernel

theorem syndromeOf_of_slot_error {d : Data} {e : Ecc} (h : isPow2 (hammingSyndrome d e) = true)
    (p : parityError d e = true) : syndromeOf d e = (hammingSyndrome d e).setWidth 8 := by
  obtain ⟨hlow, hpar⟩ := extendedSlot_low_and_parity _ h
  exact eq_syndromeOf hlow (hpar.trans p.symm)

/-! ## DECODE case by case (R110 to R117) -/

/-- Settles O12: by `decoder_clean`; the two conditions are that the syndrome is zero. -/
theorem decodeOfCleanWordAnswersIt : Obligations.DecodeOfCleanWordAnswersIt :=
  ⟨fun _ v h p => exec_decode_of_keep_success v (decoder_clean h p),
    fun d e => (syndromeOf_eq_zero_iff d e).symm.trans (syndromeOf_eq_zero_iff_codeWord d e)⟩

/-- Settles O13: the parity slots are the values that pass the power-of-two test. -/
theorem decodeAtParitySlotRewritesEcc : Obligations.DecodeAtParitySlotRewritesEcc :=
  fun _ k v p h => exec_decode_of_rewrite v (decoder_slot ((isPow2_iff_slot _).mpr ⟨k, h⟩) p)

theorem pos_range (b : Fin 64) : 1 ≤ (pos b).toNat ∧ (pos b).toNat ≤ 71 ∧ ∀ k : Fin 7, (pos b).toNat ≠ 2 ^ k.val :=
  (mem_dataPositions_iff _).mp (pos_mem b)

/-- The syndromes that name a data bit are the positions of the data bits; 1 and 2 are parity slots (R63, R67). -/
theorem lookup_isSome_iff (p : HamSyn) :
    (positionToDataBit p).isSome = true ↔ 3 ≤ p.toNat ∧ p.toNat ≤ 71 ∧ ∀ k : Fin 7, p.toNat ≠ 2 ^ k.val := by
  rw [Option.isSome_iff_exists]
  constructor
  · rintro ⟨b, hb⟩
    obtain rfl := hosted_eq_pos p b hb
    obtain ⟨h1, h71, hslot⟩ := pos_range b
    have hne1 : (pos b).toNat ≠ 1 := hslot 0
    have hne2 : (pos b).toNat ≠ 2 := hslot 1
    exact ⟨by omega, h71, hslot⟩
  · exact fun ⟨h3, h71, hslot⟩ => exists_lookup (by omega) h71 hslot

/-- Settles O14: by `decoder_dataBit`, and by the list of the positions that host a data bit. -/
theorem decodeAtDataBitInvertsIt : Obligations.DecodeAtDataBitInvertsIt :=
  ⟨fun _ _ v p h => exec_decode_of_rewrite v (decoder_dataBit h p), lookup_isSome_iff⟩

/-- Settles O15: by `decoder_overall`; an odd syndrome without a low bit is bit 7 alone. -/
theorem decodeOfOverallParityBitRewritesEcc : Obligations.DecodeOfOverallParityBitRewritesEcc :=
  fun _ v p h => ⟨exec_decode_of_rewrite v (decoder_overall h p), syndromeOf_of_overall_error h p⟩

/-- Settles O16: by `decoder_even`. -/
theorem decodeOfEvenErrorIsUncorrectable : Obligations.DecodeOfEvenErrorIsUncorrectable :=
  fun _ v p h => exec_decode_of_keep_error v (decoder_even h p)

/-- Settles O17: the lookup finds nothing exactly above the last position, and no other branch of any operation gives this
error. -/
theorem decodeBeyondLastPositionIsInvariantTable : Obligations.DecodeBeyondLastPositionIsInvariantTable := by
  refine ⟨fun s v p h => ⟨?notSlot, exec_decode_of_keep_error v (decoder_beyond h p)⟩, fun p h1 hslot => ?lookup,
    fun i s t ht hr => ?only⟩
  case notSlot => exact (isPow2_eq_false_iff _).mp (high_not_hosted _ h).2.1
  case lookup =>
    have h0 : p ≠ 0 := by rintro rfl; exact absurd h1 (by decide)
    exact lookup_none_iff_high p h0 ((isPow2_eq_false_iff p).mpr hslot)
  case only =>
    cases exec_inv ht with
    | decodeBeyond v h p => exact ⟨rfl, v, p, h⟩
    | _ => cases hr

/-- Settles O11: each branch of the pseudocode is one case of the block. -/
theorem decodeFollowsThePseudocode : Obligations.DecodeFollowsThePseudocode := by
  refine ⟨fun _ _ => rfl, fun s => ?_⟩
  cases v : s.pw.valid
  · exact exec_decode_invalid s v
  have hsyn : (s.pw.ecc ^^^ computeECC s.pw.data).extractLsb' 0 7 = hammingSyndrome s.pw.data s.pw.ecc := rfl
  simp only [← parityError_eq, hsyn, v, Bool.true_eq_false, if_false]
  split_ifs with hclean herror hslot hoverall
  · exact exec_decode_of_keep_success v (decoder_clean hclean.1 hclean.2)
  · exact exec_decode_of_rewrite v (decoder_slot ((isPow2_iff_popcount _).mpr hslot) herror.1)
  · have hslot : isPow2 (hammingSyndrome s.pw.data s.pw.ecc) = false := beq_false_of_ne hslot
    split
    · next hnone =>
      exact exec_decode_of_keep_error v (decoder_beyond ((lookup_none_iff_high _ herror.2 hslot).mp hnone) herror.1)
    · next b hb => exact exec_decode_of_rewrite v (decoder_dataBit hb herror.1)
  · exact exec_decode_of_rewrite v (decoder_overall hoverall.2 hoverall.1)
  · have p : parityError s.pw.data s.pw.ecc = false := by
      by_contra hp
      have hp := Bool.of_not_eq_false hp
      by_cases h : hammingSyndrome s.pw.data s.pw.ecc = 0
      · exact hoverall ⟨hp, h⟩
      · exact herror ⟨hp, h⟩
    exact exec_decode_of_keep_error v (decoder_even (fun h => hclean ⟨h, p⟩) p)

/-! ## The block (R111, R118, R125) -/

/-- Settles O42: one row for each case of the block. -/
theorem classificationFollowsTheTable : Obligations.ClassificationFollowsTheTable := by
  refine fun d e => ⟨fun h p => ?clean, fun h p => ?slot, fun h3 h71 hslot p => ?dataBit, fun h p => ?beyond,
    fun h p => ?overall, fun h p => ?even⟩
  case clean => rw [decoder_clean h p]; rfl
  case slot => rw [decoder_slot ((isPow2_iff_slot _).mpr h) p]; rfl
  case dataBit =>
    obtain ⟨b, hb⟩ := Option.isSome_iff_exists.mp ((lookup_isSome_iff _).mpr ⟨h3, h71, hslot⟩)
    rw [decoder_dataBit hb p]; rfl
  case beyond => rw [decoder_beyond h p]; rfl
  case overall => rw [decoder_overall h p]; rfl
  case even => rw [decoder_even h p]; rfl

/-- The block's own outputs in each of its cases (R125). -/
theorem decoderCase_outputs {d : Data} {e : Ecc} {o : DecoderOut} (h : DecoderCase d e o) :
    (statusCode o.status).toNat ≤ 4 ∧ (o.rewrite = false → o.data = d ∧ o.ecc = e) ∧
      (o.rewrite = true ↔ o.status = .success .correctedData ∨ o.status = .success .correctedEcc) := by
  cases h with
  | clean _ _ | beyond _ _ | even _ _ =>
    exact ⟨by simp [keepWord, statusCode, successCode, errorCode], fun _ => ⟨rfl, rfl⟩, by simp [keepWord]⟩
  | slot _ _ | dataBit _ _ _ | overall _ _ =>
    exact ⟨by simp [rewriteWord, statusCode, successCode], by simp [rewriteWord], by simp [rewriteWord]⟩

/-- The register and the response ports after a DECODE that the block answered with `o` (R76, R125). -/
theorem finishDecode_outputs {s : State} {o : DecoderOut} (v : s.pw.valid = true)
    (h : DecoderCase s.pw.data s.pw.ecc o) : ∃ t, finishDecode o s = .next t ∧ t.pw = ⟨true, o.data, o.ecc⟩ ∧
      rspStatus t.rsp = some (statusCode o.status) ∧
      rspData t.rsp = if (statusCode o.status).toNat ≤ 2 then some o.data else none := by
  cases h with
  | clean _ _ => exact ⟨_, finishDecode_keep_success _ _ _ _, pw_of_valid _ v, rfl, rfl⟩
  | beyond _ _ | even _ _ => exact ⟨_, finishDecode_keep_error _ _ _ _, pw_of_valid _ v, rfl, rfl⟩
  | slot _ _ | dataBit _ _ _ | overall _ _ => exact ⟨_, by rw [finishDecode_rewrite, v], rfl, rfl, rfl⟩

/-- Settles O43: by the cases of the block, and DECODE on a word ends with what the block gives for it. -/
theorem decoderBlockIsDecodeOnTheWord : Obligations.DecoderBlockIsDecodeOnTheWord := by
  refine ⟨fun d e => decoderCase_outputs (decoder_cases d e), fun s v => ?_⟩
  rw [exec_decode_valid s v]
  exact finishDecode_outputs v (decoder_cases _ _)

/-- Recomputing the check bits is inverting those that the syndrome sets (R118). -/
theorem rewriteWord_of_syndromeOf {d : Data} {e x : Ecc} (st : SuccessStatus) (h : syndromeOf d e = x) :
    rewriteWord st d = { status := .success st, data := d, ecc := e ^^^ x, rewrite := true } := by
  rw [rewriteWord, hammingEccEncoder, computeECC_eq_xor_syndromeOf d e, h]

/-- At a data bit the check bits keep their value (R118). -/
theorem rewriteWord_of_data_error {d : Data} {e : Ecc} {b : Fin 64} (h : positionToDataBit (hammingSyndrome d e) = some b)
    (p : parityError d e = true) : rewriteWord .correctedData (flipDataBit d b) =
      { status := .success .correctedData, data := flipDataBit d b, ecc := e, rewrite := true } := by
  rw [rewriteWord, hammingEccEncoder, computeECC_flipDataBit_of_data_error h p]

theorem invertAt_eq_classification {d : Data} {e : Ecc} {o : DecoderOut} (h : DecoderCase d e o)
    (p : parityError d e = true) : invertAt (hammingSyndrome d e) d e = o := by
  cases h with
  | clean _ p' | even _ p' => exact absurd (p'.symm.trans p) Bool.false_ne_true
  | overall h _ => rw [invertAt, if_pos h, rewriteWord_of_syndromeOf _ (syndromeOf_of_overall_error h p)]; rfl
  | slot h _ =>
    rw [invertAt, if_neg (isPow2_ne_zero _ h), if_pos h, rewriteWord_of_syndromeOf _ (syndromeOf_of_slot_error h p)]
  | dataBit b h _ =>
    obtain ⟨h0, hslot⟩ := hosted_not_slot _ _ h
    rw [invertAt, if_neg h0, hslot, h, rewriteWord_of_data_error h p]; rfl
  | beyond h _ =>
    obtain ⟨h0, hslot, hnone⟩ := high_not_hosted _ h
    rw [invertAt, if_neg h0, hslot, hnone]; rfl

/-- Settles O45: with a parity error both constructions rewrite the same check bits; without one neither rewrites. -/
theorem invertingDecoderRefinesTheDecoder : Obligations.InvertingDecoderRefinesTheDecoder := by
  intro d e
  cases p : parityError d e
  · rw [invertingDecoder, p, decoder_eq, classify_eq, p]
    rfl
  · rw [invertingDecoder, if_pos p, invertAt_eq_classification (decoder_cases d e) p]

/-! ## A correction is one flip (R69, R118) -/

theorem slot_syndrome_bit : ∀ (h : HamSyn) (k : Fin 7), h.toNat = 2 ^ k.val → h.setWidth 8 = 1#8 <<< k.val := by
  decide +kernel

theorem syndromeOf_of_ecc_error {d : Data} {e : Ecc} (h : hammingSyndrome d e = 0 ∨ isPow2 (hammingSyndrome d e) = true)
    (p : parityError d e = true) : ∃ k : Fin 8, syndromeOf d e = 1#8 <<< k.val := by
  obtain h | h := h
  · exact ⟨7, syndromeOf_of_overall_error h p⟩
  · obtain ⟨k, hk⟩ := (isPow2_iff_slot _).mp h
    exact ⟨k.castSucc, (syndromeOf_of_slot_error h p).trans (slot_syndrome_bit _ k hk)⟩

/-- The decoder's output `o` is its input with the bit at one position inverted. -/
def FlipsOnePosition (d : Data) (e : Ecc) (o : DecoderOut) : Prop :=
  ∃ u : Fin 72, o.data = d ^^^ flipDataPattern u ∧ o.ecc = e ^^^ flipEccPattern u

theorem eccPosition_lt : ∀ k : Fin 8, eccPosition k < 72 := by decide

theorem flipsOnePosition_of_ecc_error {d : Data} {e : Ecc}
    (h : hammingSyndrome d e = 0 ∨ isPow2 (hammingSyndrome d e) = true) (p : parityError d e = true) :
    FlipsOnePosition d e (rewriteWord .correctedEcc d) := by
  obtain ⟨k, hk⟩ := syndromeOf_of_ecc_error h p
  obtain ⟨hd, he⟩ := flipPatterns_eccPosition k ⟨eccPosition k, eccPosition_lt k⟩ rfl
  rw [rewriteWord_of_syndromeOf _ hk]
  exact ⟨_, by rw [hd]; exact BitVec.xor_zero.symm, by rw [he, BitVec.twoPow_eq]⟩

theorem flipsOnePosition_of_data_error {d : Data} {e : Ecc} {b : Fin 64}
    (h : positionToDataBit (hammingSyndrome d e) = some b) (p : parityError d e = true) :
    FlipsOnePosition d e (rewriteWord .correctedData (flipDataBit d b)) := by
  obtain ⟨-, h71, -⟩ := pos_range b
  obtain ⟨hd, he⟩ := flipPatterns_pos (p := ⟨(pos b).toNat, Nat.lt_succ_of_le h71⟩) rfl
  rw [rewriteWord_of_data_error h p]
  exact ⟨_, by rw [hd, ← dataBitMask_eq_twoPow]; rfl, by rw [he]; exact BitVec.xor_zero.symm⟩

theorem flipsOnePosition_of_rewrite {d : Data} {e : Ecc} {o : DecoderOut} (h : DecoderCase d e o)
    (hr : o.rewrite = true) : FlipsOnePosition d e o := by
  cases h with
  | clean _ _ | beyond _ _ | even _ _ => cases hr
  | overall h p => exact flipsOnePosition_of_ecc_error (.inl h) p
  | slot h p => exact flipsOnePosition_of_ecc_error (.inr h) p
  | dataBit b h p => exact flipsOnePosition_of_data_error h p

theorem popcount_flipPatterns : ∀ u : Fin 72, popcount (cw72 (flipDataPattern u) (flipEccPattern u)) = 1 := by
  decide +kernel

theorem popcount_of_flipsOnePosition {d : Data} {e : Ecc} {o : DecoderOut} (h : FlipsOnePosition d e o) :
    popcount (cw72 d e ^^^ cw72 o.data o.ecc) = 1 := by
  obtain ⟨u, hd, he⟩ := h
  rw [cw72_xor, hd, he, ← BitVec.xor_assoc, ← BitVec.xor_assoc, BitVec.xor_self, BitVec.xor_self, BitVec.zero_xor,
    BitVec.zero_xor, popcount_flipPatterns]

theorem parityError_and_codeWord_of_rewrite {d : Data} {e : Ecc} {o : DecoderOut} (h : DecoderCase d e o)
    (hr : o.rewrite = true) : parityError d e = true ∧ isCodeWord o.data o.ecc := by
  cases h with
  | clean _ _ | beyond _ _ | even _ _ => cases hr
  | overall _ p | slot _ p | dataBit _ _ p => exact ⟨p, rfl⟩

/-- Settles O44: a correction flips one position back and recomputes the check bits; which bit it is depends
on the syndrome. -/
theorem correctionChangesExactlyOneBit : Obligations.CorrectionChangesExactlyOneBit := by
  intro d e hr
  obtain ⟨p, hcode⟩ := parityError_and_codeWord_of_rewrite (decoder_cases d e) hr
  refine ⟨popcount_of_flipsOnePosition (flipsOnePosition_of_rewrite (decoder_cases d e) hr), hcode, fun k hk => ?slot,
    fun b hb => ?dataBit, fun h => ?overall⟩
  case slot =>
    have hslot := (isPow2_iff_slot _).mpr ⟨k, hk⟩
    rw [decoder_slot hslot p, rewriteWord_of_syndromeOf _ (syndromeOf_of_slot_error hslot p), slot_syndrome_bit _ k hk]
    exact ⟨rfl, rfl⟩
  case dataBit =>
    rw [decoder_dataBit hb p, rewriteWord_of_data_error hb p]
    exact ⟨rfl, rfl⟩
  case overall =>
    rw [decoder_overall h p, rewriteWord_of_syndromeOf _ (syndromeOf_of_overall_error h p)]
    exact ⟨rfl, rfl⟩

/-! ## What a DECODE changes and answers (R119, R120) -/

theorem popcount_decode_changes {s t : State} (h : ExecCase s .decode t) :
    popcount (cw72 s.pw.data s.pw.ecc ^^^ cw72 t.pw.data t.pw.ecc) ≤ 1 := by
  cases h with
  | decodeEcc _ h p => exact (popcount_of_flipsOnePosition (flipsOnePosition_of_ecc_error h p)).le
  | decodeData b _ h p => exact (popcount_of_flipsOnePosition (flipsOnePosition_of_data_error h p)).le
  | decodeNoWord _ | decodeClean _ _ _ | decodeBeyond _ _ _ | decodeEven _ _ _ =>
    rw [BitVec.xor_self, (popcount_eq_zero _).mpr rfl]
    exact Nat.zero_le 1

/-- Settles O46: a correction flips one position, and every DECODE without one leaves the word. -/
theorem decodeMutatesOnlyOnCorrection : Obligations.DecodeMutatesOnlyOnCorrection := by
  intro s t ht
  have hc := exec_inv ht
  refine ⟨popcount_decode_changes hc, ?clean, ?error, fun hne => ?changed⟩
  case clean =>
    rintro ⟨d, e, p, hr⟩
    exact decode_pw_of_no_correction hc (by simp [hr]) (by simp [hr])
  case error =>
    rintro ⟨k, hr⟩
    obtain ⟨-, -, hdata, hecc, -⟩ := ports_of_failure hr
    exact ⟨decode_failure_keeps_word hc hr, hdata, hecc⟩
  case changed =>
    by_contra hno
    push Not at hno
    exact hne (decode_pw_of_no_correction hc (fun d e p => (hno d e p).1) (fun d e p => (hno d e p).2))

/-- The data a DECODE answers, against the data it found (R120). -/
theorem decode_answered_data {s t : State} {st : SuccessStatus} {d : Data} {e : Ecc} {p : Bool}
    (h : ExecCase s .decode t) (hr : t.rsp = .answer st d e p) :
    (st ≠ .correctedData → d = s.pw.data) ∧ (st = .correctedData → ∃ b, d = flipDataBit s.pw.data b) := by
  cases h with
  | decodeClean _ _ _ | decodeEcc _ _ _ => cases hr; exact ⟨fun _ => rfl, nofun⟩
  | decodeData b _ _ _ => cases hr; exact ⟨fun hne => absurd rfl hne, fun _ => ⟨b, rfl⟩⟩
  | decodeNoWord _ | decodeBeyond _ _ _ | decodeEven _ _ _ => cases hr

/-- Settles O47: an answer is the word the step leaves, and its data is the old data or has one bit of it inverted. -/
theorem decodeAnswersTheDataAfterTheStep : Obligations.DecodeAnswersTheDataAfterTheStep := by
  refine fun s t ht => ⟨fun st d e p hr => ?answer, fun k hr => ?error⟩
  case answer =>
    obtain ⟨hpw, hp⟩ := word_of_answer (exec_inv ht) Instr.noConfusion hr
    rw [hpw]
    exact ⟨rfl, rfl, hp, decode_answered_data (exec_inv ht) hr⟩
  case error => rw [hr]; rfl

end Sys2Proof.Proofs

/-!
SUPPORT. The guarantees of the code by the number of flipped bits (R121 to R124), and the classes of outcomes (R127).
-/

namespace Sys2Proof.Proofs

open Sys2Proof.Machine Sys2Proof.Laws

/-! ## No flip and one flip (R121, R122) -/

/-- Settles O49: ENCODE leaves a code word, and DECODE answers a code word as it is. -/
theorem unflippedWordDecodesClean : Obligations.UnflippedWordDecodesClean :=
  ⟨fun _ _ => ⟨_, rfl, exec_decode_of_codeWord rfl rfl⟩, fun _ => exec_decode_of_codeWord⟩

theorem syndrome_of_flipped_data_bit {d : Data} {e : Ecc} (h : isCodeWord d e) (b : Fin 64) :
    hammingSyndrome (flipDataBit d b) e = pos b ∧ parityError (flipDataBit d b) e = true := by
  have hflip := syndromeLawForFlippedBits.1 d e (dataBitMask b) 0 h
  rw [computeECC_low, hammingBits_single, parity_dataBitMask] at hflip
  simpa [flipDataBit] using hflip

theorem syndrome_of_flipped_ecc {d : Data} {e : Ecc} (h : isCodeWord d e) (x : Ecc) :
    hammingSyndrome d (e ^^^ x) = x.extractLsb' 0 7 ∧ parityError d (e ^^^ x) = parity x := by
  have hflip := syndromeLawForFlippedBits.1 d e 0 x h
  rw [computeECC_low, map_zero_of_xor hammingBits_xor] at hflip
  simpa using hflip

theorem flipDataBit_flipDataBit (d : Data) (b : Fin 64) : flipDataBit (flipDataBit d b) b = d := by
  rw [flipDataBit, flipDataBit, BitVec.xor_assoc, BitVec.xor_self, BitVec.xor_zero]

theorem decoder_of_flipped_data_bit {d : Data} {e : Ecc} (h : isCodeWord d e) (b : Fin 64) :
    hammingEccDecoder (flipDataBit d b) e = rewriteWord .correctedData d := by
  obtain ⟨hsyn, hpar⟩ := syndrome_of_flipped_data_bit h b
  rw [decoder_dataBit (hsyn ▸ positionToDataBit_pos b) hpar, flipDataBit_flipDataBit]

theorem single_ecc_bit : ∀ k : Fin 8, parity (1#8 <<< k.val) = true ∧
    ((1#8 <<< k.val).extractLsb' 0 7 = 0#7 ∨ isPow2 ((1#8 <<< k.val).extractLsb' 0 7) = true) := by decide +kernel

theorem single_hamming_bit : ∀ k : Fin 7, ((1#8 <<< k.val).extractLsb' 0 7).toNat = 2 ^ k.val := by decide

theorem decoder_of_flipped_ecc_bit {d : Data} {e : Ecc} (h : isCodeWord d e) (k : Fin 8) :
    hammingEccDecoder d (e ^^^ (1#8 <<< k.val)) = rewriteWord .correctedEcc d := by
  obtain ⟨hsyn, hpar⟩ := syndrome_of_flipped_ecc h (1#8 <<< k.val)
  obtain ⟨hodd, h0 | hslot⟩ := single_ecc_bit k
  · exact decoder_overall (hsyn.trans h0) (hpar.trans hodd)
  · exact decoder_slot (hsyn ▸ hslot) (hpar.trans hodd)

/-- A correction to the data of a code word restores its check bits too. -/
theorem exec_decode_restores {s : State} {d d' : Data} {e e' : Ecc} {st : SuccessStatus} (h : isCodeWord d e)
    (hdec : hammingEccDecoder d' e' = rewriteWord st d) : exec .decode { s with pw := ⟨true, d', e'⟩ } =
      .next { s with pw := ⟨true, d, e⟩, rsp := .answer st d e false } := by
  subst h
  exact exec_decode_of_rewrite (s := { s with pw := ⟨true, d', e'⟩ }) rfl hdec

/-- Settles O50: the syndrome of a single flip names the flipped bit, and the corrected data has the check bits of the code
word. -/
theorem oneFlippedBitIsCorrected : Obligations.OneFlippedBitIsCorrected := by
  intro s d e h
  refine ⟨fun b => ?data, fun k => ?slot, (syndrome_of_flipped_ecc h 0x80).1, fun k => ?ecc⟩
  case data =>
    obtain ⟨hsyn, hpar⟩ := syndrome_of_flipped_data_bit h b
    obtain ⟨-, -, hslot⟩ := pos_range b
    exact ⟨hsyn, hpar, hslot, positionToDataBit_pos b, exec_decode_restores h (decoder_of_flipped_data_bit h b)⟩
  case slot =>
    rw [(syndrome_of_flipped_ecc h _).1]
    exact single_hamming_bit k
  case ecc =>
    exact ⟨(syndrome_of_flipped_ecc h _).2.trans (single_ecc_bit k).1,
      exec_decode_restores h (decoder_of_flipped_ecc_bit h k)⟩

/-! ## Two flips (R123) -/

theorem xor_positions_ne_zero {p q : Fin 72} (h : p ≠ q) : BitVec.ofNat 7 p.val ^^^ BitVec.ofNat 7 q.val ≠ 0 := by
  intro h0
  have hpq := congrArg BitVec.toNat (BitVec.xor_eq_zero_iff.mp h0)
  rw [BitVec.toNat_ofNat, BitVec.toNat_ofNat] at hpq
  omega

/-- Settles O51: the syndrome law for a list of two positions; distinct positions do not cancel. -/
theorem twoFlippedBitsAreDetected : Obligations.TwoFlippedBitsAreDetected := by
  intro s d e p q h hpq
  have hd : d ^^^ flipDataPattern p ^^^ flipDataPattern q = d ^^^ flipsData [p, q] := by
    simp [flipsData, BitVec.xor_assoc]
  have he : e ^^^ flipEccPattern p ^^^ flipEccPattern q = e ^^^ flipsEcc [p, q] := by
    simp [flipsEcc, BitVec.xor_assoc]
  have hx : xorPositions [p, q] = BitVec.ofNat 7 p.val ^^^ BitVec.ofNat 7 q.val := by simp [xorPositions]
  obtain ⟨hsyn, hodd⟩ := syndromeLawForFlippedBits.2 d e [p, q] h
  have hpar : parityError (d ^^^ flipsData [p, q]) (e ^^^ flipsEcc [p, q]) = false := by simpa using hodd
  have hne := xor_positions_ne_zero hpq
  rw [hx] at hsyn
  rw [hd, he]
  exact ⟨hpar, hsyn, hne, exec_decode_of_keep_error rfl (decoder_even (hsyn ▸ hne) hpar)⟩

/-! ## More flips (R124) -/

theorem decoder_status_of_odd {d : Data} {e : Ecc} {o : DecoderOut} (h : DecoderCase d e o)
    (p : parityError d e = true) : o.status ≠ .success .clean ∧ o.status ≠ .error .uncorrectable := by
  cases h with
  | clean _ p' | even _ p' => exact absurd (p'.symm.trans p) Bool.false_ne_true
  | slot _ _ | dataBit _ _ _ | beyond _ _ | overall _ _ => exact ⟨nofun, nofun⟩

theorem decoder_status_of_even {d : Data} {e : Ecc} (p : parityError d e = false) :
    (hammingEccDecoder d e).status = if hammingSyndrome d e = 0 then .success .clean else .error .uncorrectable := by
  split
  · next h => rw [decoder_clean h p]; rfl
  · next h => rw [decoder_even h p]; rfl

theorem codeWordBit_three_flips (p q r x : Fin 72) : codeWordBit (flipsData [p, q, r]) (flipsEcc [p, q, r]) x =
    (decide (p = x) ^^ decide (q = x) ^^ decide (r = x)) := by
  have hd : flipsData [p, q, r] = flipDataPattern p ^^^ (flipDataPattern q ^^^ flipDataPattern r) := by
    simp [flipsData]
  have he : flipsEcc [p, q, r] = flipEccPattern p ^^^ (flipEccPattern q ^^^ flipEccPattern r) := by
    simp [flipsEcc]
  rw [hd, he, codeWordBit_xor, codeWordBit_xor, codeWordBit_flipPatterns, codeWordBit_flipPatterns,
    codeWordBit_flipPatterns]
  cases decide (p = x) <;> simp

theorem eq_of_eq_xor_xor {w : Nat} {a x y : BitVec w} (h : a = a ^^^ x ^^^ y) : x = y := by
  have h0 : a ^^^ (x ^^^ y) = a ^^^ 0#w := by rw [← BitVec.xor_assoc, ← h, BitVec.xor_zero]
  exact BitVec.xor_eq_zero_iff.mp ((BitVec.xor_right_inj a).mp h0)

/-- One flip does not undo three: in the code-word view it inverts one position, and three flips invert three. -/
theorem one_flip_ne_three_flips {p q r : Fin 72} (hpq : p ≠ q) (hpr : p ≠ r) (hqr : q ≠ r) (u : Fin 72)
    (hd : flipsData [p, q, r] = flipDataPattern u) : flipsEcc [p, q, r] ≠ flipEccPattern u := by
  intro he
  have hview (x : Fin 72) : decide (u = x) = (decide (p = x) ^^ decide (q = x) ^^ decide (r = x)) := by
    rw [← codeWordBit_flipPatterns, ← codeWordBit_three_flips, hd, he]
  have hup : u = p := by simpa [hpq.symm, hpr.symm] using hview p
  have huq : u = q := by simpa [hpq, hqr.symm] using hview q
  exact hpq (hup.symm.trans huq)

theorem three_flips_corrected_wrongly {d : Data} {e : Ecc} (h : isCodeWord d e) {p q r : Fin 72} (hpq : p ≠ q)
    (hpr : p ≠ r) (hqr : q ≠ r) {o : DecoderOut}
    (hc : DecoderCase (d ^^^ flipsData [p, q, r]) (e ^^^ flipsEcc [p, q, r]) o) (hr : o.rewrite = true) :
    o.data ≠ d := by
  intro hdata
  obtain ⟨-, hcode⟩ := parityError_and_codeWord_of_rewrite hc hr
  have hecc : o.ecc = e := hcode.trans (by rw [hdata, h])
  obtain ⟨u, hd, he⟩ := flipsOnePosition_of_rewrite hc hr
  rw [hdata] at hd
  rw [hecc] at he
  exact one_flip_ne_three_flips hpq hpr hqr u (eq_of_eq_xor_xor hd) (eq_of_eq_xor_xor he)

/-- Settles O52: the parity of the number of flips is the parity error; and a correction to the original data would be one
flip that undoes three. -/
theorem moreFlipsAreMiscategorisedAsTheRulesSay : Obligations.MoreFlipsAreMiscategorisedAsTheRulesSay := by
  refine ⟨fun d e ps h => ?_, fun d e p q r h hpq hpr hqr hr =>
    three_flips_corrected_wrongly h hpq hpr hqr (decoder_cases _ _) hr⟩
  obtain ⟨hsyn, hodd⟩ := syndromeLawForFlippedBits.2 d e ps h
  refine ⟨fun hlen => decoder_status_of_odd (decoder_cases _ _) (hodd.mpr hlen), fun hlen => ?even⟩
  have hpar : parityError (d ^^^ flipsData ps) (e ^^^ flipsEcc ps) = false := by
    rw [← Bool.not_eq_true, hodd]
    omega
  rw [decoder_status_of_even hpar, hsyn]

/-! ## The classes of outcomes (R127) -/

/-- The syndrome with Hamming part `h` at the parity error `p` (R103). -/
def syndromeWith (h : HamSyn) (p : Bool) : Ecc := BitVec.ofBool (p ^^ parity h) ++ h

theorem syndromeWith_spec : ∀ (h : HamSyn) (p : Bool),
    (syndromeWith h p).extractLsb' 0 7 = h ∧ parity (syndromeWith h p) = p := by decide +kernel

theorem syndrome_pair_of_ecc (d : Data) (h : HamSyn) (p : Bool) :
    hammingSyndrome d (computeECC d ^^^ syndromeWith h p) = h ∧
      parityError d (computeECC d ^^^ syndromeWith h p) = p := by
  obtain ⟨hsyn, hpar⟩ := syndrome_of_flipped_ecc (d := d) rfl (syndromeWith h p)
  obtain ⟨hlow, hparity⟩ := syndromeWith_spec h p
  exact ⟨hsyn.trans hlow, hpar.trans hparity⟩

theorem ecc_of_syndrome_pair {d : Data} {e : Ecc} {h : HamSyn} {p : Bool} (hsyn : hammingSyndrome d e = h)
    (hpar : parityError d e = p) : e = computeECC d ^^^ syndromeWith h p := by
  obtain ⟨hlow, hparity⟩ := syndromeWith_spec h p
  rw [← eq_syndromeOf (hlow.trans hsyn.symm) (hparity.trans hpar.symm), computeECC_eq_xor_syndromeOf d e,
    BitVec.xor_assoc, BitVec.xor_self, BitVec.xor_zero]

/-- The status of the classification for each pair of Hamming syndrome and parity error; it does not depend on the word. -/
def outcomeOf (h : HamSyn) (p : Bool) : Status := (classify h p 0 0).status

theorem status_correctAt (h : HamSyn) (d d' : Data) (e e' : Ecc) :
    (correctAt h d e).status = (correctAt h d' e').status := by
  rw [correctAt, correctAt]
  split
  · rfl
  · cases positionToDataBit h <;> rfl

theorem status_classify (h : HamSyn) (p : Bool) (d : Data) (e : Ecc) : (classify h p d e).status = outcomeOf h p := by
  rw [outcomeOf, classify_eq, classify_eq]
  split
  · cases p <;> rfl
  · cases p
    · rfl
    · exact status_correctAt h d 0 e 0

/-- How many of the 256 pairs have the status `st`. -/
def outcomeCount (st : Status) : Nat :=
  ((List.finRange 128).countP fun h => outcomeOf (BitVec.ofFin h) false == st) +
    ((List.finRange 128).countP fun h => outcomeOf (BitVec.ofFin h) true == st)

theorem outcomeCount_success : outcomeCount (.success .clean) = 1 ∧ outcomeCount (.success .correctedData) = 64 ∧
    outcomeCount (.success .correctedEcc) = 8 := by decide +kernel

theorem outcomeCount_error : outcomeCount (.error .uncorrectable) = 127 ∧
    outcomeCount (.error (.invariant .table)) = 56 ∧ outcomeCount (.error (.invariant .noWord)) = 0 ∧
    outcomeCount (.error (.invariant .illegalOp)) = 0 := by decide +kernel

/-- Settles O54: the pair determines the 8-bit syndrome, and the status is counted over the pairs. -/
theorem outcomeClassesHaveTheirSizes : Obligations.OutcomeClassesHaveTheirSizes := by
  refine ⟨fun d h p => ⟨_, syndrome_pair_of_ecc d h p, fun e' => ecc_of_syndrome_pair⟩,
    outcomeOf, fun d e => status_classify _ _ d e, fun st => ?_⟩
  obtain ⟨hclean, hdata, hecc⟩ := outcomeCount_success
  obtain ⟨heven, htable, hnoWord, hillegal⟩ := outcomeCount_error
  match st with
  | .success .clean => exact hclean
  | .success .correctedData => exact hdata
  | .success .correctedEcc => exact hecc
  | .error .uncorrectable => exact heven
  | .error (.invariant .table) => exact htable
  | .error (.invariant .noWord) => exact hnoWord
  | .error (.invariant .illegalOp) => exact hillegal

end Sys2Proof.Proofs

/-!
SUPPORT. The host operations: what IDLE, LOAD and the reserved codes do (R130 to R132), and that without a LOAD the register
holds nothing but code words (R24, D23).
-/

namespace Sys2Proof.Proofs

open Sys2Proof.Machine Sys2Proof.Laws

/-! ## IDLE, LOAD and the reserved codes -/

/-- Settles O5: IDLE touches nothing but the response ports. -/
theorem idleChangesNothing : Obligations.IdleChangesNothing := ⟨fun _ _ => rfl, fun _ => rfl⟩

/-- Settles O7: the storage primitives overwrite each field of the word with its operand. -/
theorem loadWritesOperandsUnchecked : Obligations.LoadWritesOperandsUnchecked := ⟨fun _ _ => rfl, fun _ _ _ => rfl⟩

/-- `ILLEGAL_OP` comes from the reserved codes alone (R144). -/
theorem reserved_of_illegalOp {i : Instr} {s t : State} (h : ExecCase s i t)
    (hr : t.rsp = .failure (.invariant .illegalOp)) : i = .reserved5 ∨ i = .reserved6 ∨ i = .reserved7 := by
  cases h with
  | reserved5 => exact .inl rfl
  | reserved6 => exact .inr (.inl rfl)
  | reserved7 => exact .inr (.inr rfl)
  | _ => cases hr

/-- Settles O8: each reserved code raises the error whatever the state, and no other operation leaves that response. -/
theorem reservedCodesRespondIllegalOp : Obligations.ReservedCodesRespondIllegalOp := by
  obtain ⟨-, hstatus, hdata, hecc, -⟩ := ports_of_failure (k := .invariant .illegalOp) rfl
  exact ⟨fun _ _ => ⟨rfl, rfl, rfl⟩, fun s => ⟨raiseError_eq _ s, raiseError_eq _ s, raiseError_eq _ s⟩,
    hstatus, hdata, hecc, fun _ _ _ h => reserved_of_illegalOp (exec_inv h)⟩

/-! ## Without a LOAD the register holds a code word -/

/-- ENCODE and the corrections of DECODE write a code word, and no other operation but LOAD writes the register (R24, R25). -/
theorem execCase_keeps_codeWord {i : Instr} {s t : State} (h : ExecCase s i t) (hi : i.opCode ≠ 4)
    (hs : HoldsCodeWord s) : HoldsCodeWord t := by
  cases h with
  | load _ _ => exact absurd rfl hi
  | encode _ => exact fun _ => rfl
  | decodeEcc _ _ _ => exact fun _ => rfl
  | decodeData _ _ _ _ => exact fun _ => rfl
  | _ => exact hs

theorem applyMove_keeps_codeWord {m : HostMove} {s t : State} (h : applyMove m s = .next t)
    (hm : HostMove.loadsNothing m = true) (hs : HoldsCodeWord s) : HoldsCodeWord t := by
  cases m with
  | reset => cases h; exact nofun
  | command c =>
    refine execCase_keeps_codeWord (exec_inv h) ?_ hs
    rw [opCode_decodeCommand]
    exact bne_iff_ne.mp hm

theorem applyMove_keeps_queue {m : HostMove} {s t : State} (h : applyMove m s = .next t) : t.host = s.host := by
  cases m with
  | reset => cases h; rfl
  | command c => exact (execCase_keeps_queue_and_counter (exec_inv h)).1

/-- The invariant: a step carries out a move that is no LOAD and leaves the moves behind it waiting; with no move waiting it
is an IDLE (log 2). -/
theorem step_keeps_codeWord {s t : State} (hs : HoldsCodeWord s) (hload : NoLoadPending s) (h : step s = .next t) :
    HoldsCodeWord t ∧ NoLoadPending t := by
  cases hq : s.host with
  | nil =>
    rw [step_of_nil hq] at h
    cases h
    exact ⟨hs, hload⟩
  | cons m rest =>
    rw [step_of_cons hq] at h
    rw [NoLoadPending, hq, List.forall_mem_cons] at hload
    obtain ⟨hm, hrest⟩ := hload
    refine ⟨applyMove_keeps_codeWord h hm hs, ?_⟩
    rwa [NoLoadPending, applyMove_keeps_queue h]

/-- Settles O57: by the invariant of a step, and since DECODE answers a code word as it is. -/
theorem withoutLoadTheRegisterHoldsACodeWord : Obligations.WithoutLoadTheRegisterHoldsACodeWord :=
  ⟨fun _ _ ⟨hs, hload⟩ h => step_keeps_codeWord hs hload h, fun _ hs v => exec_decode_of_codeWord v (hs v)⟩

end Sys2Proof.Proofs

/-!
SUPPORT. The errors: the codes that tell their kinds apart (R140), which operation raises which (R141 to R145), and the order
in which their conditions are tested (R147).
-/

namespace Sys2Proof.Proofs

open Sys2Proof.Machine Sys2Proof.Laws

/-! ## The status codes (R75, R140) -/

/-- The table of R75 read from the code to the status: what a host knows from `rsp_status_o` alone. -/
def statusOfCode (c : StatusCode) : Option Status :=
  match c with
  | 0 => some (.success .clean)
  | 1 => some (.success .correctedData)
  | 2 => some (.success .correctedEcc)
  | 3 => some (.error .uncorrectable)
  | 4 => some (.error (.invariant .table))
  | 5 => some (.error (.invariant .noWord))
  | 6 => some (.error (.invariant .illegalOp))
  | 7 => none

theorem statusOfCode_statusCode (a : Status) : statusOfCode (statusCode a) = some a := by
  match a with
  | .success .clean | .success .correctedData | .success .correctedEcc => rfl
  | .error .uncorrectable => rfl
  | .error (.invariant .table) | .error (.invariant .noWord) | .error (.invariant .illegalOp) => rfl

theorem statusCode_injective : Function.Injective statusCode := by
  intro a b h
  rw [← Option.some_inj, ← statusOfCode_statusCode, h, statusOfCode_statusCode]

theorem statusCode_ne_seven (a : Status) : statusCode a ≠ 7 := by
  intro h
  have ha := statusOfCode_statusCode a
  rw [h] at ha
  cases ha

theorem successCode_le_two (st : SuccessStatus) : (successCode st).toNat ≤ 2 := by cases st <;> decide

theorem four_le_errorCode_invariant (c : InvariantCause) : 4 ≤ (errorCode (.invariant c)).toNat := by cases c <;> decide

theorem isSuccess_iff_code (a : Status) : (∃ st, a = .success st) ↔ (statusCode a).toNat ≤ 2 := by
  match a with
  | .success st => exact iff_of_true ⟨st, rfl⟩ (successCode_le_two st)
  | .error .uncorrectable => exact iff_of_false nofun (by decide)
  | .error (.invariant c) => exact iff_of_false nofun (Nat.not_le_of_lt (Nat.le_of_succ_le (four_le_errorCode_invariant c)))

theorem isInvariant_iff_code (a : Status) : (∃ c, a = .error (.invariant c)) ↔ 4 ≤ (statusCode a).toNat := by
  match a with
  | .success st =>
    exact iff_of_false nofun (Nat.not_le_of_lt (Nat.lt_succ_of_le (Nat.le_succ_of_le (successCode_le_two st))))
  | .error .uncorrectable => exact iff_of_false nofun (by decide)
  | .error (.invariant c) => exact iff_of_true ⟨c, rfl⟩ (four_le_errorCode_invariant c)

/-- Settles O20: the table can be read backwards, and each kind has its own range of codes. -/
theorem statusCodesTellTheKindsApart : Obligations.StatusCodesTellTheKindsApart :=
  ⟨rfl, rfl, rfl, rfl, rfl, rfl, rfl, fun _ _ h => statusCode_injective h, statusCode_ne_seven, isSuccess_iff_code,
    isInvariant_iff_code⟩

/-! ## Which operation raises which error (R141 to R145) -/

/-- The errors an operation can raise, as R141 to R145 list them. -/
def MayRaise : Instr → ErrorKind → Prop
  | .idle, _ | .encode _, _ | .load _ _, _ => False
  | .decode, k => k ≠ .invariant .illegalOp
  | .syndrome, k => k = .invariant .noWord
  | .reserved5, k | .reserved6, k | .reserved7, k => k = .invariant .illegalOp

theorem mayRaise_of_failure {i : Instr} {s t : State} {k : ErrorKind} (h : ExecCase s i t) (hr : t.rsp = .failure k) :
    MayRaise i k := by
  cases h with
  | idle | encode _ | load _ _ | syndrome _ | decodeClean _ _ _ | decodeEcc _ _ _ | decodeData _ _ _ _ => cases hr
  | syndromeNoWord _ | reserved5 | reserved6 | reserved7 => cases hr; rfl
  | decodeNoWord _ | decodeBeyond _ _ _ | decodeEven _ _ _ => cases hr; exact nofun

/-- Settles O21: every operation answers, and with no error but those it may raise. -/
theorem encodeLoadAndIdleCannotFail : Obligations.EncodeLoadAndIdleCannotFail := by
  intro i s
  obtain ⟨t, ht, hc⟩ := exec_cases i s
  refine ⟨t, ht, ?never, ?syndrome⟩
  case never => rintro (rfl | ⟨d, rfl⟩ | ⟨d, e, rfl⟩) k hr <;> exact mayRaise_of_failure hc hr
  case syndrome => rintro rfl k hr; exact mayRaise_of_failure hc hr

/-- Settles O10: the guard of DECODE and SYNDROME, and no other branch of any operation leaves that response. -/
theorem noWordIsRaisedByDecodeAndSyndromeOnly : Obligations.NoWordIsRaisedByDecodeAndSyndromeOnly := by
  refine ⟨fun s v => ⟨exec_decode_invalid s v, exec_syndrome_invalid s v⟩, fun i s t ht hr => ?_⟩
  cases exec_inv ht with
  | decodeNoWord v => exact ⟨v, v, .inl rfl⟩
  | syndromeNoWord v => exact ⟨v, v, .inr rfl⟩
  | _ => cases hr

/-! ## The order of the tests (R147) -/

theorem decodeCommand_eq_of_op {c : Command} {i : Instr} (hf : i.format = .N) (h : c.op = i.opCode) :
    decodeCommand c = i := by
  obtain ⟨op, d, e⟩ := c
  obtain rfl : op = i.opCode := h
  exact decodeCommand_of_format_N hf d e

theorem reserved_of_five_le_op {c : Command} (h : 5 ≤ c.op.toNat) :
    decodeCommand c = .reserved5 ∨ decodeCommand c = .reserved6 ∨ decodeCommand c = .reserved7 := by
  have hop : ∀ op : OpCode, 5 ≤ op.toNat → op = 5 ∨ op = 6 ∨ op = 7 := by decide
  obtain h5 | h6 | h7 := hop c.op h
  · exact .inl (decodeCommand_eq_of_op rfl h5)
  · exact .inr (.inl (decodeCommand_eq_of_op rfl h6))
  · exact .inr (.inr (decodeCommand_eq_of_op rfl h7))

/-- The end of a DECODE reports the error of the block's status, and no other (R125). -/
theorem finishDecode_failure_iff (o : DecoderOut) (s : State) :
    ∃ t, finishDecode o s = .next t ∧ ∀ k, t.rsp = .failure k ↔ o.status = .error k := by
  obtain ⟨status, d, e, rewrite⟩ := o
  cases status with
  | success st => exact ⟨_, rfl, fun k => iff_of_false nofun nofun⟩
  | error k' => exact ⟨_, rfl, fun k => by simp only [Response.failure.injEq, Status.error.injEq]⟩

/-- Settles O22: the command code selects the operation, and the guard comes before the classification. -/
theorem errorsHaveAFixedPriority : Obligations.ErrorsHaveAFixedPriority := by
  refine fun c s => ⟨fun h => ?reserved, fun h v => ?noWord, fun h v => ?syndrome, fun h v => ?decode⟩
  case reserved =>
    obtain hc | hc | hc := reserved_of_five_le_op h <;> rw [hc] <;> exact ⟨_, raiseError_eq _ s, rfl⟩
  case noWord =>
    obtain h | h := h
    · rw [decodeCommand_eq_of_op (i := .decode) rfl h]
      exact ⟨_, exec_decode_invalid s v, rfl⟩
    · rw [decodeCommand_eq_of_op (i := .syndrome) rfl h]
      exact ⟨_, exec_syndrome_invalid s v, rfl⟩
  case syndrome =>
    rw [decodeCommand_eq_of_op (i := .syndrome) rfl h]
    exact ⟨_, exec_syndrome_valid s v, nofun⟩
  case decode =>
    rw [decodeCommand_eq_of_op (i := .decode) rfl h, exec_decode_valid s v]
    exact finishDecode_failure_iff _ s

end Sys2Proof.Proofs

/-!
SUPPORT. Reset and what follows it: the valid bit from a reset on (R160, R162), and what the ports show before the first word
and after an error (R35, R70, R166).
-/

namespace Sys2Proof.Proofs

open Sys2Proof.Machine Sys2Proof.Laws

/-! ## Reset takes the word away, and nothing else does (R160) -/

theorem execCase_keeps_word_present {i : Instr} {s t : State} (h : ExecCase s i t) (v : s.pw.valid = true) :
    t.pw.valid = true := (valid_after_iff h).mpr (.inl v)

/-- Settles O1: a reset writes the valid bit and the response, and every operation keeps a valid bit that is set. -/
theorem resetIsTheOnlyWayToNoWord : Obligations.ResetIsTheOnlyWayToNoWord := by
  refine ⟨fun s => ⟨takeReset s, rfl, takeReset_valid s, congrArg rspValid (takeReset_rsp s)⟩, fun c s => ?_⟩
  obtain ⟨t, ht, hc⟩ := exec_cases (decodeCommand c) s
  exact ⟨t, ht, execCase_keeps_word_present hc⟩

/-! ## The output ports with a word and without one (R26, R70) -/

theorem outputPorts_of_word {s : State} (v : s.pw.valid = true) : outputPorts s =
    { pwValid := true, pwData := some s.pw.data, pwEcc := some s.pw.ecc, rspValid := rspValid s.rsp,
      rspStatus := rspStatus s.rsp, rspData := rspData s.rsp, rspEcc := rspEcc s.rsp, rspPerr := rspPerr s.rsp } := by
  rw [outputPorts, v, if_pos rfl, if_pos rfl]

theorem outputPorts_of_noWord {s : State} (v : s.pw.valid = false) : outputPorts s =
    { pwValid := false, pwData := none, pwEcc := none, rspValid := rspValid s.rsp, rspStatus := rspStatus s.rsp,
      rspData := rspData s.rsp, rspEcc := rspEcc s.rsp, rspPerr := rspPerr s.rsp } := by
  rw [outputPorts, v, if_neg Bool.false_ne_true, if_neg Bool.false_ne_true]

/-- An error leaves the register as it was, whatever operation raised it (R148). -/
theorem failure_keeps_word {i : Instr} {s t : State} {k : ErrorKind} (h : ExecCase s i t) (hr : t.rsp = .failure k) :
    t.pw = s.pw := by
  cases h with
  | encode _ | load _ _ | decodeEcc _ _ _ | decodeData _ _ _ _ => cases hr
  | _ => rfl

/-- Settles O2: the ports follow the valid bit, and an error leaves the register as it was and no response data. -/
theorem resetStateHoldsNoWord : Obligations.ResetStateHoldsNoWord := by
  refine ⟨outputPorts_of_noWord rfl, fun _ => outputPorts_of_word, fun _ => outputPorts_of_noWord,
    fun i s t k h hr v => ?_⟩
  have hpw : t.pw = s.pw := failure_keeps_word (exec_inv h) hr
  obtain ⟨hvalid, hstatus, hdata, hecc, hperr⟩ := ports_of_failure hr
  rw [outputPorts_of_word (hpw ▸ v), hpw, hvalid, hstatus, hdata, hecc, hperr]

/-! ## The first command after a reset (R162) -/

/-- Once a word is present, DECODE and SYNDROME find it. -/
theorem decode_and_syndrome_find_word {s : State} (v : s.pw.valid = true) :
    ∃ t u, exec .decode s = .next t ∧ exec .syndrome s = .next u ∧
      t.rsp ≠ .failure (.invariant .noWord) ∧ u.rsp ≠ .failure (.invariant .noWord) := by
  have hfound : ∀ (i : Instr) (t : State), exec i s = .next t → t.rsp ≠ .failure (.invariant .noWord) := by
    intro i t ht hr
    obtain ⟨v', -⟩ := noWordIsRaisedByDecodeAndSyndromeOnly.2 i s t ht hr
    exact Bool.noConfusion (v.symm.trans v')
  obtain ⟨t, ht, -⟩ := exec_cases .decode s
  obtain ⟨u, hu, -⟩ := exec_cases .syndrome s
  exact ⟨t, u, ht, hu, hfound _ t ht, hfound _ u hu⟩

/-- Settles O3: ENCODE and LOAD look at no word and leave one, which DECODE and SYNDROME need. -/
theorem bootNeedsAWordForDecodeAndSyndrome : Obligations.BootNeedsAWordForDecodeAndSyndrome :=
  ⟨rfl, fun s _ _ v => ⟨⟨_, rfl, rfl⟩, ⟨_, rfl, rfl, decode_and_syndrome_find_word rfl⟩,
    ⟨_, rfl, rfl, decode_and_syndrome_find_word rfl⟩, ⟨_, exec_decode_invalid s v, rfl⟩,
    ⟨_, exec_syndrome_invalid s v, rfl⟩⟩⟩

/-! ## The invariants at `State.reset` (R35) -/

theorem holdsCodeWord_of_noWord {s : State} (v : s.pw.valid = false) : HoldsCodeWord s :=
  fun v' => Bool.noConfusion (v.symm.trans v')

theorem noLoadPending_of_nil {s : State} (h : s.host = []) : NoLoadPending s := by
  rw [NoLoadPending, h]
  exact List.forall_mem_nil _

/-- Settles O58: the reset state holds no word, no move waits there, and it carries no response. -/
theorem resetStateIsSafe : Obligations.ResetStateIsSafe :=
  ⟨holdsCodeWord_of_noWord rfl, noLoadPending_of_nil rfl, trivial⟩

end Sys2Proof.Proofs

/-!
SUPPORT. The position table of R67, read from a position to the data bit it hosts and back (R67, D11).
-/

namespace Sys2Proof.Proofs

open Sys2Proof.Machine Sys2Proof.Laws

/-- The table hosts no bit exactly off the positions of R62: at 0, beyond position 71, and at a parity slot. -/
theorem lookup_eq_none_iff (p : HamSyn) :
    positionToDataBit p = none ↔ p.toNat = 0 ∨ 72 ≤ p.toNat ∨ ∃ k : Fin 7, p.toNat = 2 ^ k.val := by
  constructor
  · intro hnone
    by_contra hin
    obtain ⟨h0, h72, hslot⟩ := by simpa only [not_or, not_exists] using hin
    obtain ⟨b, hb⟩ := exists_lookup (by omega) (by omega) hslot
    exact Option.some_ne_none b (hb.symm.trans hnone)
  · intro hout
    rw [Option.eq_none_iff_forall_ne_some]
    intro b hb
    obtain rfl := hosted_eq_pos p b hb
    obtain ⟨h1, h71, hslot⟩ := pos_range b
    obtain h0 | h72 | ⟨k, hk⟩ := hout
    · omega
    · omega
    · exact hslot k hk

/-- Settles O30: `pos` and the table are inverse to each other, and the table is `NONE` off the positions of data bits. -/
theorem positionTableInvertsPositions : Obligations.PositionTableInvertsPositions :=
  ⟨positionToDataBit_pos, fun p b h => (hosted_eq_pos p b h).symm, lookup_eq_none_iff, rfl⟩

end Sys2Proof.Proofs
